-- ==== Sys2Proof/Word.lean ====
section
/-! DEFINITION. The word types of the MEXP engine (00_scope.md R6, R9; 20_memory.md R51). -/

namespace Sys2Proof

/-- Every operand register, result register and command word is a 32-bit word, bit 0 the least
significant (R6, R9). -/
abbrev Word := BitVec 32

/-- One byte lane of the 32-bit bus (R51). -/
abbrev Byte := BitVec 8

end Sys2Proof
end

