-- ==== Sys2Proof/Config.lean ====
section
/-! DEFINITION. What the platform fixes and what the spec leaves open (00_scope.md R7). The two `opaque`
constants have no body: no proof can learn a value of them. -/

namespace Sys2Proof.Config

/-- Which 64-byte block of the platform's address space holds the register window. OPEN in the spec
(R7, R50, decision D3), so it is a free value (log entry 3). -/
opaque windowIndex : Nat

/-- MEXP_BASE: chosen by the platform, a multiple of 64 (R7, R50). -/
def mexpBase : Nat := 64 * windowIndex

/-- The window is 64 bytes long (R21). -/
def windowBytes : Nat := 64

/-- The constant that register ID reads (R28). -/
def idValue : Word := 0x4D455850#32

/-- What the temporary `t<k>` of host number `h` holds before the host program writes it: "unknown until
written" (R89), a free value (log entry 11). -/
opaque unknownTemp : Nat → Nat → Word

end Sys2Proof.Config
end

