-- ==== Sys2Proof/Machine/Window.lean ====
section
/-! DEFINITION. The names of the register window and the shapes of the accesses and events a host can make
(10_state.md R21; 20_memory.md R52, R61). -/

namespace Sys2Proof.Machine

/-- The sixteen word slots of the register window (R21). -/
inductive WindowReg where
  | ctrl | status | cmd | opa | opb | opc | res | x | y | aux | seed | maxdraw | id
  /-- The reserved slots 0x34, 0x38 and 0x3C. -/
  | rsv34 | rsv38 | rsv3C
  deriving DecidableEq, Repr

/-- How many bytes an access moves: the bus has four byte lanes (R51), and the sub-word accesses the spec names
are of 1 and 2 bytes (R52). -/
inductive AccessSize where
  | byte | half | word
  deriving DecidableEq, Repr

/-- One bus access by any host: MemRead(addr, n) or MemWrite(addr, n, v) (R12). Hosts carry no identifiers
(R192). -/
inductive Access where
  | read (addr : Nat) (size : AccessSize)
  | write (addr : Nat) (size : AccessSize) (data : Word)
  deriving DecidableEq, Repr

/-- What the engine answers to an access in its window: read data, a write taken, or the bus error response,
which for a read comes with a data word (R52). -/
inductive BusResponse where
  | okRead (data : Word)
  | okWrite
  | errorRead (data : Word)
  | errorWrite
  deriving DecidableEq, Repr

/-- The events of the serial order (R61): a bus access, one operation of host program number `host` (R89), the
point where the engine's completion falls (R102), and the two edges of the reset input (R210). R61 gives a host
operation that makes no access no place in the order; giving it an event is the model's choice (DESIGN CHOICE, log
entry 24). -/
inductive Event where
  | access (a : Access)
  | host (host : Nat)
  | completion
  | assertReset
  | releaseReset
  deriving DecidableEq, Repr

end Sys2Proof.Machine
end

