-- ==== Sys2Proof/Machine/HostProgram.lean ====
section
/-! DEFINITION. The host notation's operations and a host that runs them, as data (30_encoding.md R89, R90). -/

namespace Sys2Proof.Machine

/-- The value operand of a host operation: a constant or a temporary (R89). -/
inductive HostVal where
  | const (v : Word)
  | temp (k : Fin 8)
  deriving DecidableEq, Repr

/-- The operations of the host notation (R89). A branch target is a label's number in a source line and an
index into the program once assembled. -/
inductive HostOp where
  /-- `W REG, v`: one legal bus write. -/
  | write (r : WindowReg) (v : HostVal)
  /-- `R REG -> tK`: one legal bus read. -/
  | read (r : WindowReg) (t : Fin 8)
  /-- `MOV tK, v`. -/
  | mov (t : Fin 8) (v : HostVal)
  /-- `ADDI tK, v`: tK <- u32(tK + v). -/
  | addi (t : Fin 8) (v : HostVal)
  /-- `BEQ tK, v, L`. -/
  | beq (t : Fin 8) (v : HostVal) (target : Nat)
  /-- `BNE tK, v, L`. -/
  | bne (t : Fin 8) (v : HostVal) (target : Nat)
  /-- `BBC tK, i, L`: branch if bit i of tK is 0. -/
  | bbc (t : Fin 8) (bit : Fin 32) (target : Nat)
  /-- `BBS tK, i, L`: branch if bit i of tK is 1. -/
  | bbs (t : Fin 8) (bit : Fin 32) (target : Nat)
  /-- `JMP L`. -/
  | jmp (target : Nat)
  /-- `HALT`: end of the host program. -/
  | halt
  deriving DecidableEq, Repr

/-- One host that runs a program in the host notation: its assembled operations, the index of the next one, and
its temporaries t0 to t7 (R89). -/
structure HostAgent where
  prog : List HostOp
  pc : Nat
  temps : Vector Word 8
  deriving DecidableEq, Repr

/-- The pseudo-instruction CALL with its operands (R90). -/
inductive HostCall where
  | nop
  | modpow (a b c : HostVal)
  | modmul (a b c : HostVal)
  | egcd (a b : HostVal)
  | modinv (e m : HostVal)
  | decomp (n : HostVal)
  | mrwit (n a : HostVal)
  | mrtest (n : HostVal) (k : Nat)
  deriving DecidableEq, Repr

/-- One source line: a label, a plain operation whose targets are label numbers, or one of the
pseudo-instructions WAIT, CALL and CHECK (R89, R90). -/
inductive HostLine where
  | label (name : Nat)
  | op (o : HostOp)
  | wait
  | call (c : HostCall)
  | check
  deriving DecidableEq, Repr

end Sys2Proof.Machine
end

