-- ==== Sys2Proof/Machine/State.lean ====
section
/-! DEFINITION. The machine's state, why it stops, and the state after reset (10_state.md R20 to R46;
60_exceptions.md R192; 70_reset_and_hazards.md R210). The engine makes no memory accesses and has no memory (R43);
its one address space is the register window, which Machine/Ops.lean computes from these fields. -/

namespace Sys2Proof.Machine

/-- The command latch L: the inputs of the command in flight (R40, R60). -/
structure Latch where
  /-- L.cmd: the command word written to CMD. -/
  cmd : Word
  /-- L.a, L.b, L.c: copies of OPA, OPB and OPC at the accept. -/
  a : Word
  b : Word
  c : Word
  /-- L.rng: a copy of RNG_STATE (SEED) at the accept. -/
  rng : Word
  /-- L.maxdraw: a copy of MAXDRAW.LIMIT at the accept. -/
  maxdraw : BitVec 16
  deriving DecidableEq, Repr

/-- PHASE (R38). The latch exists only while PHASE = BUSY (R40), so it stands inside that phase. -/
inductive Phase where
  | idle
  | busy (latch : Latch)
  deriving DecidableEq, Repr

/-- The engine: its architectural registers, PHASE and the latch (R20). STATUS.BUSY reads PHASE (R38), irq
follows two fields and is not a stored bit (R41), CTRL.SRST always reads 0 (R22) and ID is a constant (R28), so
none of these is stored. -/
structure Engine where
  /-- CTRL.IRQ_EN (R22). -/
  irqEn : Bool
  /-- STATUS.DONE (R23). -/
  done : Bool
  /-- STATUS.ERR (R23). -/
  err : Bool
  /-- STATUS.WERR, sticky (R23). -/
  werr : Bool
  /-- STATUS.ERRCODE (R23, R180). -/
  errcode : BitVec 4
  /-- CMD: the last accepted command word (R25). -/
  cmd : Word
  /-- OPA, OPB and OPC (R30). -/
  opa : Word
  opb : Word
  opc : Word
  /-- RES, X, Y and AUX (R31). -/
  res : Word
  x : Word
  y : Word
  aux : Word
  /-- SEED, the architectural RNG_STATE (R26). -/
  seed : Word
  /-- MAXDRAW.LIMIT (R27). -/
  limit : BitVec 16
  /-- PHASE, with the latch while BUSY (R38, R40). -/
  phase : Phase
  deriving DecidableEq, Repr

/-- The whole machine: the engine, the reset input's level, and the outside world's part of the serial order. -/
structure State where
  engine : Engine
  /-- Whether the reset input is asserted (R210). -/
  resetAsserted : Bool
  /-- The serial order still to come (R61): the next event first. The model's own field (log entry 1). -/
  agenda : List Event
  /-- The hosts that run programs in the host notation (R20, R89). -/
  hosts : List HostAgent
  /-- The engine's answer to the last bus access, none where it did not respond (R50, R52, R55). The model's own
  field (log entry 6). -/
  lastResponse : Option BusResponse
  deriving DecidableEq, Repr

/-- Why the machine stops with a fault. -/
inductive Fault where
  /-- Raised by every command's meaning when it is asked to complete while PHASE = IDLE: the engine has a step
  only when PHASE = BUSY (R100). `step` never asks it. Safe: the machine stops. -/
  | noCommandInFlight
  /-- Raised by a host whose program index has left its program without a HALT, which the host notation gives no
  effect (R89). Safe: the machine stops. -/
  | hostRanOffProgram
  deriving DecidableEq, Repr

/-- Why the model refuses. -/
inductive Refusal where
  /-- The instruction has no meaning yet. Raised by `exec`'s refused arms only. Safe: the machine stops. -/
  | notModelled (mnemonic : String)
  /-- Raised by an access to the window while the reset input is asserted: "Bus accesses during reset get no
  response the model defines. A host must not access the window until reset is released" (R210, U10). Safe: the
  machine stops. -/
  | accessDuringReset
  deriving DecidableEq, Repr

/-- The engine's reset state (R45, R210). -/
def Engine.reset : Engine where
  irqEn := false
  done := false
  err := false
  werr := false
  errcode := 0x0#4
  cmd := 0x00000000#32
  opa := 0x00000000#32
  opb := 0x00000000#32
  opc := 0x00000000#32
  res := 0x00000000#32
  x := 0x00000000#32
  y := 0x00000000#32
  aux := 0x00000000#32
  seed := 0x00000001#32
  limit := 0x0040#16
  phase := .idle

/-- The machine right after reset: the engine in its reset state, the reset input released, and nothing yet asked
of it by the outside world (R45, R210, R211; log entry 15). -/
def State.reset : State where
  engine := Engine.reset
  resetAsserted := false
  agenda := []
  hosts := []
  lastResponse := none

end Sys2Proof.Machine
end

