-- ==== Sys2Proof/Machine/Flags.lean ====
section
/-! DEFINITION. STATUS, its error codes and irq (10_state.md R23, R24, R39, R41; 60_exceptions.md R180, R185). -/

namespace Sys2Proof.Machine

/-- The errors a command can raise (R180). -/
inductive ErrorCode where
  | illegalCmd
  | zeroModulus
  | noInverse
  | witnessRange
  | operandRange
  | rngExhausted
  deriving DecidableEq, Repr

/-- The code of an error in STATUS.ERRCODE (R180). Code 0 is no error, and codes 7 to 15 are never raised. -/
def ErrorCode.code : ErrorCode → BitVec 4
  | .illegalCmd => 0x1#4
  | .zeroModulus => 0x2#4
  | .noInverse => 0x3#4
  | .witnessRange => 0x4#4
  | .operandRange => 0x5#4
  | .rngExhausted => 0x6#4

/-- PHASE = BUSY, which STATUS.BUSY reads (R38). -/
def Engine.isBusy (e : Engine) : Bool :=
  match e.phase with
  | .idle => false
  | .busy _ => true

/-- A one-bit field of a register word, as a number's bits above zeros. -/
def bitWord (b : Bool) : Word := (BitVec.ofBool b).setWidth 32

/-- The word STATUS reads: BUSY at bit 0, DONE at 1, ERR at 2, WERR at 4, ERRCODE at [11:8], every other bit 0
(R23). -/
def Engine.statusWord (e : Engine) : Word :=
  bitWord e.isBusy ||| (bitWord e.done <<< 1) ||| (bitWord e.err <<< 2) ||| (bitWord e.werr <<< 4)
    ||| (e.errcode.setWidth 32 <<< 8)

/-- A write to STATUS clears DONE if bit 1 is 1 and WERR if bit 4 is 1, and does nothing else (R23). -/
def Engine.writeStatus (w : Word) (e : Engine) : Engine :=
  { e with done := e.done && !w.getLsbD 1, werr := e.werr && !w.getLsbD 4 }

/-- STATUS after an accept, less BUSY (R60). WERR is unchanged. -/
def Engine.clearForAccept (e : Engine) : Engine :=
  { e with done := false, err := false, errcode := 0x0#4 }

/-- STATUS after a success completion, less BUSY (R103). -/
def Engine.markSuccess (e : Engine) : Engine :=
  { e with done := true, err := false, errcode := 0x0#4 }

/-- STATUS after an error completion, less BUSY (R104). -/
def Engine.markError (code : ErrorCode) (e : Engine) : Engine :=
  { e with done := true, err := true, errcode := code.code }

/-- STATUS after a write dropped because PHASE = BUSY (R62). -/
def Engine.markDropped (e : Engine) : Engine := { e with werr := true }

/-- The interrupt output, a level (R41, R185). -/
def Engine.irq (e : Engine) : Bool := e.irqEn && e.done

end Sys2Proof.Machine
end

