-- ==== Sys2Proof/Syntax.lean ====
section
/-! DEFINITION. The command set MEXP-32 v1 (00_scope.md R2; 30_encoding.md R81 to R84), one constructor a row of
the opcode table. -/

namespace Sys2Proof

/-- The eight commands. Operands are never encoded in the word (R80): they come from the latch, so the only
field of a command is MRTEST's round count (R82). -/
inductive Instr where
  /-- No operation (R106). -/
  | nop
  /-- Modular exponentiation by repeated squaring (R121). -/
  | modpow
  /-- One modular multiplication (R125). -/
  | modmul
  /-- Extended Euclid (R128). -/
  | egcd
  /-- Modular inverse (R133). -/
  | modinv
  /-- The decomposition n - 1 = 2^r d with d odd (R150). -/
  | decomp
  /-- One Miller-Rabin round with a witness the host gives (R156). -/
  | mrwit
  /-- The whole Miller-Rabin test with `rounds` witnesses from the generator (R163). -/
  | mrtest (rounds : Nat)
  deriving DecidableEq, Repr

end Sys2Proof
end

