-- ==== Sys2Proof/WellFormed.lean ====
section
/-! DEFINITION. Which commands have a word (30_encoding.md R82, R88). -/

namespace Sys2Proof

/-- CW.ROUNDS is an unsigned 8-bit count, and an assembler refuses MRTEST with k outside 0 to 255 (R82, R88).
No other command has a field. -/
def Instr.wellFormed : Instr → Bool
  | .nop | .modpow | .modmul | .egcd | .modinv | .decomp | .mrwit => true
  | .mrtest rounds => decide (rounds ≤ 255)

end Sys2Proof
end

