-- ==== Sys2Proof/Decode.lean ====
section
/-! DEFINITION. The decoder and the encoder of command words (30_encoding.md R80 to R88; 40_engine_cycle.md R105). -/

namespace Sys2Proof

/-! ### The fields of format CW (R81) -/

/-- CW.OP, bits [3:0] (R81). -/
def cwOp (w : Word) : BitVec 4 := w.extractLsb' 0 4

/-- CW.RSV0, bits [7:4], must be 0 (R81). -/
def cwRsv0 (w : Word) : BitVec 4 := w.extractLsb' 4 4

/-- CW.ROUNDS, bits [15:8], an unsigned count (R81, R82). -/
def cwRounds (w : Word) : BitVec 8 := w.extractLsb' 8 8

/-- CW.RSV1, bits [31:16], must be 0 (R81). -/
def cwRsv1 (w : Word) : BitVec 16 := w.extractLsb' 16 16

/-- The legality test, made before every operand check (R85, R105). -/
def legalCommand (w : Word) : Bool :=
  cwRsv1 w == 0 && cwRsv0 w == 0 && decide (cwOp w ≤ 7) && (cwOp w == 7 || cwRounds w == 0)

/-- Why a byte string is no legal command: the three classes of illegal words (R86), and a transfer that is not
one whole 32-bit word, which is never a command (R87). -/
inductive DecodeError where
  /-- A nonzero RSV0 or RSV1 field. -/
  | reservedField
  /-- A reserved opcode, 0x8 to 0xF. -/
  | reservedOpcode
  /-- A nonzero ROUNDS field with an opcode other than 0x7. -/
  | roundsField
  /-- Not exactly four bytes. -/
  | notOneWord
  deriving DecidableEq, Repr

/-- The opcode map for the opcodes other than MRTEST, whose words have a zero ROUNDS field (R83). -/
def plainCommand (op : BitVec 4) : Except DecodeError Instr :=
  match op.toNat with
  | 0 => .ok .nop
  | 1 => .ok .modpow
  | 2 => .ok .modmul
  | 3 => .ok .egcd
  | 4 => .ok .modinv
  | 5 => .ok .decomp
  | 6 => .ok .mrwit
  | _ => .error .reservedOpcode

/-- Decoding of one command word (R83, R85, R86). Every word is decoded to the one command it selects or refused
by the class it falls in. -/
def decodeWord (w : Word) : Except DecodeError Instr :=
  if cwRsv1 w ≠ 0 ∨ cwRsv0 w ≠ 0 then .error .reservedField
  else if 7 < cwOp w then .error .reservedOpcode
  else if cwOp w = 7 then .ok (.mrtest (cwRounds w).toNat)
  else if cwRounds w ≠ 0 then .error .roundsField
  else plainCommand (cwOp w)

/-- The register word carried by the four byte lanes: lane k carries bits [8k+7:8k] (R51). -/
def wordOfLanes (b0 b1 b2 b3 : Byte) : Word := b3 ++ b2 ++ b1 ++ b0

/-- Byte lane k of a register word (R51). -/
def laneOfWord (w : Word) (k : Nat) : Byte := w.extractLsb' (8 * k) 8

/-- Decoding of any byte string: a command is exactly one 32-bit word (R80, R87). -/
def decodeBytes : List Byte → Except DecodeError Instr
  | [b0, b1, b2, b3] => decodeWord (wordOfLanes b0 b1 b2 b3)
  | _ => .error .notOneWord

/-! ### The encoder (R83, R88) -/

/-- The command word of a command (R83, R88): the opcode in OP, MRTEST's count in ROUNDS, zeros elsewhere. -/
def encode : Instr → Word
  | .nop => 0x00000000#32
  | .modpow => 0x00000001#32
  | .modmul => 0x00000002#32
  | .egcd => 0x00000003#32
  | .modinv => 0x00000004#32
  | .decomp => 0x00000005#32
  | .mrwit => 0x00000006#32
  | .mrtest rounds => 0x00000007#32 ||| (BitVec.ofNat 32 rounds <<< 8)

/-- The command word as the bytes of lanes 0 to 3 (R51). -/
def encodeBytes (i : Instr) : List Byte :=
  [laneOfWord (encode i) 0, laneOfWord (encode i) 1, laneOfWord (encode i) 2, laneOfWord (encode i) 3]

/-- One row of the opcode map: a word w selects the row's command iff (w & mask) == match (R83). -/
structure OpcodeRow where
  op : BitVec 4
  pattern : Word
  mask : Word
  deriving DecidableEq, Repr

/-- The opcode map as the spec tabulates it (R83). The decoder does not read it; the statements compare the
two. -/
def opcodeRows : List OpcodeRow :=
  [⟨0x0, 0x00000000#32, 0xFFFFFFFF#32⟩, ⟨0x1, 0x00000001#32, 0xFFFFFFFF#32⟩,
   ⟨0x2, 0x00000002#32, 0xFFFFFFFF#32⟩, ⟨0x3, 0x00000003#32, 0xFFFFFFFF#32⟩,
   ⟨0x4, 0x00000004#32, 0xFFFFFFFF#32⟩, ⟨0x5, 0x00000005#32, 0xFFFFFFFF#32⟩,
   ⟨0x6, 0x00000006#32, 0xFFFFFFFF#32⟩, ⟨0x7, 0x00000007#32, 0xFFFF00FF#32⟩]

/-- Whether a word selects a row (R83). -/
def OpcodeRow.selects (r : OpcodeRow) (w : Word) : Bool := w &&& r.mask == r.pattern

/-! ### The assembler syntax for one command word (R88) -/

/-- The eight mnemonics (R88). -/
inductive Mnemonic where
  | NOP | MODPOW | MODMUL | EGCD | MODINV | DECOMP | MRWIT | MRTEST
  deriving DecidableEq, Repr

/-- The text of one command word: a mnemonic with or without an operand, or `.word v` (R88). -/
inductive CommandText where
  | command (m : Mnemonic) (operand : Option Nat)
  | word (v : Word)
  deriving DecidableEq, Repr

/-- The assembler for one command word. It refuses MRTEST with k outside 0 to 255 and an operand on any other
mnemonic; `.word v` emits any word, legal or not (R88). -/
def assembleCommand : CommandText → Option Word
  | .command .NOP none => some (encode .nop)
  | .command .MODPOW none => some (encode .modpow)
  | .command .MODMUL none => some (encode .modmul)
  | .command .EGCD none => some (encode .egcd)
  | .command .MODINV none => some (encode .modinv)
  | .command .DECOMP none => some (encode .decomp)
  | .command .MRWIT none => some (encode .mrwit)
  | .command .MRTEST (some k) => if k ≤ 255 then some (encode (.mrtest k)) else none
  | .command _ _ => none
  | .word v => some v

/-! ### The opcode table's numbering -/

/-- The command word of an instruction whose bits are `w`, every bit from `nbits` up being 0. -/
def tableWord (nbits w : Nat) : Word := BitVec.ofNat 32 (w % 2 ^ nbits)

/-- What the decoder reads from an instruction whose bits are `w`: the word is laid out on the four byte lanes
(R51) and given to the byte decoder. -/
def decodeTableWord (nbits w : Nat) : Option Instr :=
  match decodeBytes [laneOfWord (tableWord nbits w) 0, laneOfWord (tableWord nbits w) 1,
      laneOfWord (tableWord nbits w) 2, laneOfWord (tableWord nbits w) 3] with
  | .ok i => some i
  | .error _ => none

end Sys2Proof
end

