-- ==== Sys2Proof/Machine/Operands.lean ====
section
/-! DEFINITION. Where a command's operands come from (20_memory.md R60; 30_encoding.md R82, R84). -/

namespace Sys2Proof.Machine

/-- What the accept of word w latches (R40, R60). -/
def Engine.capture (w : Word) (e : Engine) : Latch where
  cmd := w
  a := e.opa
  b := e.opb
  c := e.opc
  rng := e.seed
  maxdraw := e.limit

/-- L.a as an unsigned integer: base, a, e or n (R84). -/
abbrev Latch.opA (l : Latch) : Nat := l.a.toNat

/-- L.b as an unsigned integer: exponent, b, m or witness (R84). -/
abbrev Latch.opB (l : Latch) : Nat := l.b.toNat

/-- L.c as an unsigned integer: modulus (R84). -/
abbrev Latch.opC (l : Latch) : Nat := l.c.toNat

/-- L.maxdraw as a count, 0 to 65535 (R161). -/
abbrev Latch.tries (l : Latch) : Nat := l.maxdraw.toNat

/-- A nonnegative integer result as a result register's word. Every result given to it is below 2^32 (R136). -/
def resultWord (v : Nat) : Word := BitVec.ofNat 32 v

/-- A Boolean result of a primality command: 0 or 1 in RES (R39). -/
def verdictWord (b : Bool) : Word := if b then 1#32 else 0#32

end Sys2Proof.Machine
end

