-- ==== Sys2Proof/Machine/Ops.lean ====
section
/-! DEFINITION. The shared operations: accept, the two completions, reset, and the register window seen from the
bus (20_memory.md R50 to R62; 40_engine_cycle.md R101 to R104; 70_reset_and_hazards.md R210, R212). -/

namespace Sys2Proof.Machine

/-- The machine's three outcomes. -/
abbrev Outcome := Host.Outcome State Fault Refusal

/-! ### Accept and completion -/

/-- Accept of word w: latch the inputs, keep the word for readback, clear DONE, ERR and ERRCODE, go BUSY (R60). -/
def Engine.accept (w : Word) (e : Engine) : Engine :=
  { e.clearForAccept with cmd := w, phase := .busy (e.capture w) }

/-- The register writes of a success completion: at most one word for each of RES, X, Y and AUX (R101). -/
structure Writes where
  res : Option Word := none
  x : Option Word := none
  y : Option Word := none
  aux : Option Word := none
  deriving DecidableEq, Repr

/-- What running a latched command answers (R101): `Ok(writes, rng')` or `Err(code, rng')`. -/
inductive Result where
  | ok (writes : Writes) (rng : Word)
  | err (code : ErrorCode) (rng : Word)
  deriving DecidableEq, Repr

/-- The success commit (R103). A result register not in the writes keeps its value. -/
def Engine.commitSuccess (writes : Writes) (rng : Word) (e : Engine) : Engine :=
  { e.markSuccess with
    res := writes.res.getD e.res
    x := writes.x.getD e.x
    y := writes.y.getD e.y
    aux := writes.aux.getD e.aux
    seed := rng
    phase := .idle }

/-- The error commit, this hardware's taking of an error (R104, R186): STATUS and SEED only. It saves nothing
else, changes no mode and goes to no vector. -/
def Engine.commitError (code : ErrorCode) (rng : Word) (e : Engine) : Engine :=
  { e.markError code with seed := rng, phase := .idle }

/-- The commit of either outcome (R102). -/
def Engine.commit : Result → Engine → Engine
  | .ok writes rng => Engine.commitSuccess writes rng
  | .err code rng => Engine.commitError code rng

/-- The completion of the command in flight, whose meaning is a function of the latch alone (R101, R102). The
engine has a step only when PHASE = BUSY (R100). -/
def complete (meaning : Latch → Result) (s : State) : Outcome :=
  match s.engine.phase with
  | .idle => .fault .noCommandInFlight
  | .busy l => .next { s with engine := s.engine.commit (meaning l) }

/-- The refusal of an illegal command word at its completion (R86, R105). -/
def illegalCommand (l : Latch) : Result := .err .illegalCmd l.rng

/-! ### Reset -/

/-- The reset input is asserted: every piece of engine state takes its reset value, and a command in flight is
lost (R210). -/
def State.assertReset (s : State) : State := { s with engine := Engine.reset, resetAsserted := true }

/-- The reset input is released, the engine in the reset state (R210). -/
def State.releaseReset (s : State) : State := { s with engine := Engine.reset, resetAsserted := false }

/-! ### The register window -/

/-- The offset of a window register (R21). -/
def WindowReg.off : WindowReg → Nat
  | .ctrl => 0x00
  | .status => 0x04
  | .cmd => 0x08
  | .opa => 0x0C
  | .opb => 0x10
  | .opc => 0x14
  | .res => 0x18
  | .x => 0x1C
  | .y => 0x20
  | .aux => 0x24
  | .seed => 0x28
  | .maxdraw => 0x2C
  | .id => 0x30
  | .rsv34 => 0x34
  | .rsv38 => 0x38
  | .rsv3C => 0x3C

/-- The register whose word slot holds the byte at an offset of the window (R21). -/
def slotAt (off : Nat) : WindowReg :=
  match off / 4 with
  | 0 => .ctrl
  | 1 => .status
  | 2 => .cmd
  | 3 => .opa
  | 4 => .opb
  | 5 => .opc
  | 6 => .res
  | 7 => .x
  | 8 => .y
  | 9 => .aux
  | 10 => .seed
  | 11 => .maxdraw
  | 12 => .id
  | 13 => .rsv34
  | 14 => .rsv38
  | _ => .rsv3C

/-- The read data of a register (R55). Reading changes nothing (R54). -/
def Engine.readReg (e : Engine) : WindowReg → Word
  | .ctrl => bitWord e.irqEn
  | .status => e.statusWord
  | .cmd => e.cmd
  | .opa => e.opa
  | .opb => e.opb
  | .opc => e.opc
  | .res => e.res
  | .x => e.x
  | .y => e.y
  | .aux => e.aux
  | .seed => e.seed
  | .maxdraw => e.limit.setWidth 32
  | .id => Config.idValue
  | .rsv34 | .rsv38 | .rsv3C => 0x00000000#32

/-- A write to CTRL: IRQ_EN takes bit 0, then bit 1 = 1 performs a soft reset, which clears IRQ_EN again (R22,
R212). -/
def Engine.writeCtrl (w : Word) (e : Engine) : Engine :=
  if w.getLsbD 1 then Engine.reset else { e with irqEn := w.getLsbD 0 }

/-- The effect of a legal write (R56, R62). -/
def Engine.writeReg (e : Engine) (r : WindowReg) (w : Word) : Engine :=
  match r with
  | .ctrl => e.writeCtrl w
  | .status => e.writeStatus w
  | .cmd => if e.isBusy then e.markDropped else e.accept w
  | .opa => { e with opa := w }
  | .opb => { e with opb := w }
  | .opc => { e with opc := w }
  | .seed => if e.isBusy then e.markDropped else { e with seed := w }
  | .maxdraw => if e.isBusy then e.markDropped else { e with limit := w.extractLsb' 0 16 }
  | .res | .x | .y | .aux | .id | .rsv34 | .rsv38 | .rsv3C => e

/-- The offset of a byte address in the window, none outside it (R50). -/
def windowOffset (addr : Nat) : Option Nat :=
  if Config.mexpBase ≤ addr ∧ addr < Config.mexpBase + Config.windowBytes then some (addr - Config.mexpBase)
  else none

/-- A legal access moves exactly 4 bytes at an offset that is a multiple of 4 (R52). -/
def legalAccess (size : AccessSize) (off : Nat) : Bool := size == .word && off % 4 == 0

/-- An access at an offset of the window: its effect on the engine and the engine's answer. An illegal access
changes no state and is answered with a bus error, a read with data 0 (R52, R182). -/
def Engine.respond (e : Engine) (a : Access) (off : Nat) : Engine × BusResponse :=
  match a with
  | .read _ size =>
    if legalAccess size off then (e, .okRead (e.readReg (slotAt off))) else (e, .errorRead 0x00000000#32)
  | .write _ size data =>
    if legalAccess size off then (e.writeReg (slotAt off) data, .okWrite) else (e, .errorWrite)

/-- The byte address an access names. -/
def Access.addr : Access → Nat
  | .read addr _ => addr
  | .write addr _ _ => addr

/-- One bus access as an event of the machine. The engine does not respond outside its window (R50), and the spec
gives no response while the reset input is asserted (R210). -/
def busAccess (a : Access) (s : State) : Outcome :=
  match windowOffset a.addr with
  | none => .next { s with lastResponse := none }
  | some off =>
    if s.resetAsserted then .refused .accessDuringReset
    else .next { s with engine := (s.engine.respond a off).1, lastResponse := some (s.engine.respond a off).2 }

/-- The byte a byte address of the window names: byte address MEXP_BASE + off + k is lane k of the register at
off (R51). No access reads one byte alone (R52). This is the model's view of the one address space. -/
def Engine.byteAt (e : Engine) (addr : Nat) : Option Byte :=
  match windowOffset addr with
  | none => none
  | some off => some (laneOfWord (e.readReg (slotAt off)) (off % 4))

end Sys2Proof.Machine
end

