-- ==== Sys2Proof/Machine/Control.lean ====
section
/-! DEFINITION. The control command NOP (40_engine_cycle.md R106). -/

namespace Sys2Proof.Machine

/-- NOP: `complete({})` (R106). -/
def nop (l : Latch) : Result := .ok {} l.rng

/-- The completion of a NOP. -/
def execNop (s : State) : Outcome := complete nop s

end Sys2Proof.Machine
end

