-- ==== Sys2Proof/Machine/Arith.lean ====
section
/-! DEFINITION. The integer arithmetic of the commands: exact integers, no wrap-around unless `u32` is applied
(00_scope.md R10, R14; 41_modular_arithmetic.md; 42_primality.md). Every loop is structural recursion on a bound
the spec gives for it (40_engine_cycle.md R107; log entry 14). -/

namespace Sys2Proof.Machine

/-! ### Notation (R10) -/

/-- u32(v) = v mod 2^32 for any integer v (R10). -/
def u32 (v : Int) : Word := BitVec.ofInt 32 v

/-- s32(w): the two's-complement reading of a word (R10). -/
def s32 (w : Word) : Int := if w.toNat < 2 ^ 31 then (w.toNat : Int) else (w.toNat : Int) - 2 ^ 32

/-- bitlen(v): the number of bits of v, 0 for 0 (R10). -/
def bitlen (v : Nat) : Nat := if v = 0 then 0 else Nat.log2 v + 1

/-- The trailing zeros of a number, looking at no more than `bound` bits. -/
def ctzUpTo : Nat → Nat → Nat
  | 0, _ => 0
  | bound + 1, v => if v % 2 = 1 then 0 else ctzUpTo bound (v / 2) + 1

/-- ctz(v): the number of trailing zero bits of v > 0 (R10). -/
def ctz (v : Nat) : Nat := ctzUpTo (bitlen v) v

/-! ### Modular arithmetic -/

/-- mulmod(x, y, m): the exact product reduced (R120). -/
def mulmod (x y m : Nat) : Nat := (x * y) % m

/-- The loop of MODPOW with its variables r, b and e (R121): right-to-left square-and-multiply, at most `bound`
iterations. -/
def powLoop (m : Nat) : Nat → Nat → Nat → Nat → Nat
  | 0, r, _, _ => r
  | bound + 1, r, b, e =>
    if e = 0 then r
    else powLoop m bound (if e % 2 = 1 then mulmod r b m else r) (mulmod b b m) (e >>> 1)

/-- MODPOW's value for a modulus other than 0: modulus 1 is special-cased to 0, then the loop, which runs at most
bitlen(e) times (R107, R121, R123). -/
def powMod (base e m : Nat) : Nat := if m = 1 then 0 else powLoop m (bitlen e) 1 (base % m) e

/-- The loop of EGCD with its three accumulator pairs (R128), at most `bound` iterations. -/
def egcdLoop : Nat → Nat → Nat → Int → Int → Int → Int → Nat × Int × Int
  | 0, r0, _, s0, _, t0, _ => (r0, s0, t0)
  | bound + 1, r0, r1, s0, s1, t0, t1 =>
    if r1 = 0 then (r0, s0, t0)
    else
      let q := r0 / r1
      egcdLoop bound r1 (r0 - q * r1) s1 (s0 - q * s1) t1 (t0 - q * t1)

/-- egcd(a, b) = (g, x, y), in the iterative form (R128), which gives the triple of the recursive definition (R129;
the law `egcd_eq_spec`). r1 strictly decreases, so b + 1 iterations are enough (R107). -/
def egcd (a b : Nat) : Nat × Int × Int := egcdLoop (b + 1) a b 1 0 0 1

/-! ### The primality core -/

/-- decomp(n) = (d, r) with n - 1 = 2^r d and d odd, for n ≥ 2 (R152). -/
def decomp (n : Nat) : Nat × Nat := ((n - 1) >>> ctz (n - 1), ctz (n - 1))

/-- The deterministic shortcuts (R153). -/
def shortcut (n : Nat) : Option Bool :=
  if n ≤ 1 then some false
  else if n = 2 ∨ n = 3 then some true
  else if n % 2 = 0 then some false
  else none

/-- `repeat k times: x <- mulmod(x, x, n); if x == n - 1: return PASS` (R154). It does not stop when x becomes 1
(R155, decision D23). -/
def squareUpTo (n : Nat) : Nat → Nat → Bool
  | 0, _ => false
  | k + 1, x => if mulmod x x n = n - 1 then true else squareUpTo n k (mulmod x x n)

/-- One round with witness a: true is PASS, false is COMPOSITE (R154). -/
def mrRound (n d r a : Nat) : Bool :=
  let x := powMod a d n
  if x = 1 ∨ x = n - 1 then true else squareUpTo n (r - 1) x

/-- The hardware's RNG_NEXT (R160). -/
def xorshift32 (x0 : Word) : Word :=
  let x1 := x0 ^^^ (x0 <<< 13)
  let x2 := x1 ^^^ (x1 >>> 17)
  x2 ^^^ (x2 <<< 5)

/-- RNG_NEXT of this hardware (R7, R159, R160; log entry 4). The functions below take it as an argument. -/
def rngNext : Word → Word := xorshift32

/-- The number of values in [2, n-2] (R161). -/
def witnessSpan (n : Nat) : Nat := n - 3

/-- The mask of rule R161: 2**L - 1 with L = bitlen(span - 1). -/
def witnessMask (n : Nat) : Nat := 2 ^ bitlen (witnessSpan n - 1) - 1

/-- One draw's candidate: the masked generator state (R161). -/
def candidate (n : Nat) (rng : Word) : Nat := rng.toNat &&& witnessMask n

/-- draw_witness(n, rng, maxdraw) with `tries` tries left: the witness, or none for RNG_EXHAUSTED, and the
generator state reached (R161). -/
def drawWitness (next : Word → Word) (n : Nat) : Nat → Word → Option Nat × Word
  | 0, rng => (none, rng)
  | tries + 1, rng =>
    if candidate n (next rng) < witnessSpan n then (some (2 + candidate n (next rng)), next rng)
    else drawWitness next n tries (next rng)

end Sys2Proof.Machine
end

