-- ==== Sys2Proof/Machine/ModularArithmetic.lean ====
section
/-! DEFINITION. MODPOW, MODMUL, EGCD and MODINV (41_modular_arithmetic.md). -/

namespace Sys2Proof.Machine

/-- MODPOW: modulus 0 is refused first, then modulus 1 and the loop (R121, R124). -/
def modpow (l : Latch) : Result :=
  if l.opC = 0 then .err .zeroModulus l.rng
  else .ok { res := some (resultWord (powMod l.opA l.opB l.opC)) } l.rng

/-- MODMUL (R125). -/
def modmul (l : Latch) : Result :=
  if l.opC = 0 then .err .zeroModulus l.rng
  else .ok { res := some (resultWord (mulmod l.opA l.opB l.opC)) } l.rng

/-- EGCD: completes for every pair of operands (R128). -/
def egcdCommand (l : Latch) : Result :=
  let g := egcd l.opA l.opB
  .ok { res := some (resultWord g.1), x := some (u32 g.2.1), y := some (u32 g.2.2) } l.rng

/-- MODINV: modulus 0 is refused before the gcd test (R133, R135). -/
def modinv (l : Latch) : Result :=
  if l.opB = 0 then .err .zeroModulus l.rng
  else if (egcd l.opA l.opB).1 ≠ 1 then .err .noInverse l.rng
  else .ok { res := some (resultWord ((egcd l.opA l.opB).2.1 % (l.opB : Int)).toNat) } l.rng

/-- The completion of a MODPOW. -/
def execModpow (s : State) : Outcome := complete modpow s

/-- The completion of a MODMUL. -/
def execModmul (s : State) : Outcome := complete modmul s

/-- The completion of an EGCD. -/
def execEgcd (s : State) : Outcome := complete egcdCommand s

/-- The completion of a MODINV. -/
def execModinv (s : State) : Outcome := complete modinv s

end Sys2Proof.Machine
end

