-- ==== Sys2Proof/Machine/Primality.lean ====
section
/-! DEFINITION. DECOMP, MRWIT and MRTEST (42_primality.md). -/

namespace Sys2Proof.Machine

/-- DECOMP: n below 2 has no decomposition (R150). -/
def decompCommand (l : Latch) : Result :=
  if l.opA < 2 then .err .operandRange l.rng
  else .ok { res := some (resultWord (decomp l.opA).1), aux := some (resultWord (decomp l.opA).2) } l.rng

/-- MRWIT: a shortcut wins over a bad witness (R156, R157). -/
def mrwit (l : Latch) : Result :=
  match shortcut l.opA with
  | some verdict => .ok { res := some (verdictWord verdict), aux := some 0#32 } l.rng
  | none =>
    if l.opB < 2 ∨ l.opA - 2 < l.opB then .err .witnessRange l.rng
    else
      .ok { res := some (verdictWord (mrRound l.opA (decomp l.opA).1 (decomp l.opA).2 l.opB))
            aux := some (resultWord l.opB) } l.rng

/-- The rounds of MRTEST still to run, with the generator state and the last witness so far (R163). The bound on
draws applies to each witness (R161). -/
def mrRounds (next : Word → Word) (n maxdraw : Nat) : Nat → Word → Nat → Result
  | 0, rng, last => .ok { res := some (verdictWord true), aux := some (resultWord last) } rng
  | k + 1, rng, _ =>
    match drawWitness next n maxdraw rng with
    | (none, rng') => .err .rngExhausted rng'
    | (some a, rng') =>
      if mrRound n (decomp n).1 (decomp n).2 a then mrRounds next n maxdraw k rng' a
      else .ok { res := some (verdictWord false), aux := some (resultWord a) } rng'

/-- MRTEST with `rounds` rounds, for any generator (R159, R163). -/
def mrtest (next : Word → Word) (rounds : Nat) (l : Latch) : Result :=
  match shortcut l.opA with
  | some verdict => .ok { res := some (verdictWord verdict), aux := some 0#32 } l.rng
  | none => mrRounds next l.opA l.tries rounds l.rng 0

/-- The completion of a DECOMP. -/
def execDecomp (s : State) : Outcome := complete decompCommand s

/-- The completion of an MRWIT. -/
def execMrwit (s : State) : Outcome := complete mrwit s

/-- The completion of an MRTEST with this hardware's generator. -/
def execMrtest (rounds : Nat) (s : State) : Outcome := complete (mrtest rngNext rounds) s

end Sys2Proof.Machine
end

