-- ==== Sys2Proof/Machine/Dispatch.lean ====
section
/-! DEFINITION. One arm for each command (40_engine_cycle.md R105). -/

namespace Sys2Proof.Machine

def exec (i : Instr) (s : State) : Host.Outcome State Fault Refusal :=
  match i with
  | .nop => Sys2Proof.Machine.execNop s
  | .modpow => Sys2Proof.Machine.execModpow s
  | .modmul => Sys2Proof.Machine.execModmul s
  | .egcd => Sys2Proof.Machine.execEgcd s
  | .modinv => Sys2Proof.Machine.execModinv s
  | .decomp => Sys2Proof.Machine.execDecomp s
  | .mrwit => Sys2Proof.Machine.execMrwit s
  | .mrtest rounds => Sys2Proof.Machine.execMrtest rounds s

end Sys2Proof.Machine
end

