-- ==== Sys2Proof/Machine/HostOps.lean ====
section
/-! DEFINITION. The assembler of the host notation and the effect of one host operation (30_encoding.md R89, R90;
70_reset_and_hazards.md R225). -/

namespace Sys2Proof.Machine

/-! ### The assembler -/

/-- Replaces a branch target through `f`, refusing where `f` does. -/
def HostOp.retarget (f : Nat → Option Nat) : HostOp → Option HostOp
  | .beq t v target => (f target).map (.beq t v)
  | .bne t v target => (f target).map (.bne t v)
  | .bbc t i target => (f target).map (.bbc t i)
  | .bbs t i target => (f target).map (.bbs t i)
  | .jmp target => (f target).map .jmp
  | .write r v => some (.write r v)
  | .read r t => some (.read r t)
  | .mov t v => some (.mov t v)
  | .addi t v => some (.addi t v)
  | .halt => some .halt

/-- WAIT, standing at index `here`: read STATUS to t7 and loop until DONE = 1 (R90). -/
def waitOps (here : Nat) : List HostOp := [.read .status 7, .bbc 7 1 here]

/-- The writes of a CALL: the operands it lists, then the command word. MRTEST with k above 255 is refused
(R90). -/
def HostCall.writes : HostCall → Option (List HostOp)
  | .nop => some [.write .cmd (.const (encode .nop))]
  | .modpow a b c => some [.write .opa a, .write .opb b, .write .opc c, .write .cmd (.const (encode .modpow))]
  | .modmul a b c => some [.write .opa a, .write .opb b, .write .opc c, .write .cmd (.const (encode .modmul))]
  | .egcd a b => some [.write .opa a, .write .opb b, .write .cmd (.const (encode .egcd))]
  | .modinv e m => some [.write .opa e, .write .opb m, .write .cmd (.const (encode .modinv))]
  | .decomp n => some [.write .opa n, .write .cmd (.const (encode .decomp))]
  | .mrwit n a => some [.write .opa n, .write .opb a, .write .cmd (.const (encode .mrwit))]
  | .mrtest n k =>
    if k ≤ 255 then some [.write .opa n, .write .cmd (.const (encode (.mrtest k)))] else none

/-- The operations of one line standing at index `here`, `labels` giving each label's index (R89, R90). -/
def HostLine.expand (labels : Nat → Option Nat) (here : Nat) : HostLine → Option (List HostOp)
  | .label _ => some []
  | .op o => (o.retarget labels).map fun o' => [o']
  | .wait => some (waitOps here)
  | .call c => c.writes.map fun ws => ws ++ waitOps (here + ws.length)
  | .check => some [.read .status 6]

/-- How many operations a line becomes. -/
def HostLine.size (l : HostLine) : Nat :=
  match l with
  | .label _ => 0
  | .op _ => 1
  | .wait => 2
  | .call c => (c.writes.map (·.length + 2)).getD 0
  | .check => 1

/-- The index a label stands for in the lines that start at index `here`. -/
def labelIndex (name : Nat) : Nat → List HostLine → Option Nat
  | _, [] => none
  | here, .label m :: rest => if m = name then some here else labelIndex name here rest
  | here, l :: rest => labelIndex name (here + l.size) rest

/-- The operations of lines that start at index `here`. -/
def expandLines (labels : Nat → Option Nat) : Nat → List HostLine → Option (List HostOp)
  | _, [] => some []
  | here, l :: rest =>
    match l.expand labels here, expandLines labels (here + l.size) rest with
    | some ops, some more => some (ops ++ more)
    | _, _ => none

/-- The labels the lines define. -/
def definedLabels : List HostLine → List Nat
  | [] => []
  | .label m :: rest => m :: definedLabels rest
  | _ :: rest => definedLabels rest

/-- The assembled program. A label that is not defined, or defined twice, is refused (log entry 13). -/
def assembleHost (lines : List HostLine) : Option (List HostOp) :=
  if (definedLabels lines).Nodup then expandLines (fun name => labelIndex name 0 lines) 0 lines else none

/-- Host number `h` before its program's first operation: its temporaries hold unknown values (R89; log entry
11). -/
def HostAgent.start (h : Nat) (prog : List HostOp) : HostAgent where
  prog := prog
  pc := 0
  temps := Vector.ofFn fun k => Config.unknownTemp h k.val

/-! ### One operation -/

/-- A temporary's word. -/
def HostAgent.temp (h : HostAgent) (k : Fin 8) : Word := h.temps[k.val]

/-- The word of a value operand (R89). -/
def HostAgent.value (h : HostAgent) : HostVal → Word
  | .const v => v
  | .temp k => h.temp k

/-- The next operation in program order. -/
def HostAgent.advance (h : HostAgent) : HostAgent := { h with pc := h.pc + 1 }

/-- The next operation, a temporary taking a value. -/
def HostAgent.setTemp (k : Fin 8) (w : Word) (h : HostAgent) : HostAgent :=
  { h with pc := h.pc + 1, temps := h.temps.set k.val w k.isLt }

/-- Go to the target where the condition holds, else on. -/
def HostAgent.branch (taken : Bool) (target : Nat) (h : HostAgent) : HostAgent :=
  { h with pc := if taken then target else h.pc + 1 }

/-- The word a read took from the bus: MemRead gives the data word, with or without the error (R12, R52). -/
def responseWord : Option BusResponse → Word → Word
  | some (.okRead w), _ => w
  | some (.errorRead w), _ => w
  | _, old => old

/-- The bus access of an operation, none for one that makes no access (R89). -/
def HostAgent.accessOf (h : HostAgent) : HostOp → Option Access
  | .write r v => some (.write (Config.mexpBase + r.off) .word (h.value v))
  | .read r _ => some (.read (Config.mexpBase + r.off) .word)
  | .mov _ _ | .addi _ _ | .beq _ _ _ | .bne _ _ _ | .bbc _ _ _ | .bbs _ _ _ | .jmp _ | .halt => none

/-- The host after an operation, `response` being the engine's answer to its access (R89). At HALT it stays
(R225). -/
def HostAgent.after (response : Option BusResponse) (h : HostAgent) : HostOp → HostAgent
  | .write _ _ => h.advance
  | .read _ t => h.setTemp t (responseWord response (h.temp t))
  | .mov t v => h.setTemp t (h.value v)
  | .addi t v => h.setTemp t (h.temp t + h.value v)
  | .beq t v target => h.branch (h.temp t == h.value v) target
  | .bne t v target => h.branch (h.temp t != h.value v) target
  | .bbc t i target => h.branch (!(h.temp t).getLsbD i.val) target
  | .bbs t i target => h.branch ((h.temp t).getLsbD i.val) target
  | .jmp target => h.branch true target
  | .halt => h

/-- Whether a host program has ended (R225). That it has ended once HALT is its next operation, before its own event
in the serial order, is the model's choice (DESIGN CHOICE, log entry 24). -/
def HostAgent.halted (h : HostAgent) : Bool := h.prog[h.pc]? == some HostOp.halt

/-- Host number k after its operation. -/
def State.updateHost (k : Nat) (h : HostAgent) (s : State) : State := { s with hosts := s.hosts.set k h }

/-- One operation of host number k (R89). An operation that makes no access changes the host alone. A number that
names no host is no event (log entry 12). -/
def hostEvent (k : Nat) (s : State) : Outcome :=
  match s.hosts[k]? with
  | none => .next s
  | some h =>
    match h.prog[h.pc]? with
    | none => .fault .hostRanOffProgram
    | some op =>
      match h.accessOf op with
      | none => .next (s.updateHost k (h.after none op))
      | some a =>
        match busAccess a s with
        | .next s' => .next (s'.updateHost k (h.after s'.lastResponse op))
        | .fault f => .fault f
        | .refused r => .refused r

end Sys2Proof.Machine
end

