-- ==== Sys2Proof/Machine/Agents.lean ====
section
/-! DEFINITION. Who moves next: the engine's one kind of step, and the events of the serial order (20_memory.md
R61; 40_engine_cycle.md R100, R102, R105). -/

namespace Sys2Proof.Machine

/-- The engine's step: the completion of the command in flight, and no step while IDLE or while the reset input
holds it (R100, R102, R210). The latched word is decoded before anything else (R105). -/
def engineEvent (s : State) : Outcome :=
  if s.resetAsserted then .next s
  else
    match s.engine.phase with
    | .idle => .next s
    | .busy l =>
      match decodeWord l.cmd with
      | .ok i => exec i s
      | .error _ => complete illegalCommand s

/-- One event of the serial order (R61). -/
def perform (ev : Event) (s : State) : Outcome :=
  match ev with
  | .access a => busAccess a s
  | .host k => hostEvent k s
  | .completion => engineEvent s
  | .assertReset => .next s.assertReset
  | .releaseReset => .next s.releaseReset

/-- The next event of the serial order. With none left a BUSY engine completes, which is the weak fairness of
R102, and an IDLE engine waits (R211; log entry 2). -/
def nextEvent (s : State) : Outcome :=
  match s.agenda with
  | [] => engineEvent s
  | ev :: rest => perform ev { s with agenda := rest }

end Sys2Proof.Machine
end

