-- ==== Sys2Proof/Machine/Step.lean ====
section
/-! DEFINITION. The step, and how a command word is placed before it (20_memory.md R60, R61; 40_engine_cycle.md
R102). -/

namespace Sys2Proof.Machine

/-- One step is one event of the serial order (R61). -/
def step (s : State) : Host.Outcome State Fault Refusal := nextEvent s

/-- The state in which the very next step runs the word w. The engine fetches nothing (R38, R65): a command comes
to run by its accept (R60), so the word is accepted with the operands the registers hold and the next event of the
serial order is its completion. The reset input is released, since no command is in flight while it is asserted
(R210; log entry 15). -/
def State.withFetchWord (s : State) (nbits w : Nat) : State :=
  { s with engine := s.engine.accept (tableWord nbits w), resetAsserted := false, agenda := .completion :: s.agenda }

end Sys2Proof.Machine
end

