-- ==== Sys2Proof/Safety.lean ====
section
/-! DEFINITION. The terms the claims use: the invariant of the machine's states, what a safe run is, and the
mathematical forms of egcd, of one Miller-Rabin round and of a whole MRTEST, written from the spec's own words and
apart from the functions the machine runs. -/

namespace Sys2Proof.Machine

/-! ### Invariants -/

/-- The STATUS invariants (10_state.md R24, R180). -/
structure Engine.StatusOk (e : Engine) : Prop where
  busy_clear : ∀ l, e.phase = .busy l → e.done = false ∧ e.err = false ∧ e.errcode = 0#4
  err_code : e.err = true → 1 ≤ e.errcode.toNat ∧ e.errcode.toNat ≤ 6
  no_err_code : e.err = false → e.errcode = 0#4

/-- While BUSY, the latch's command word, generator state and draw limit are those the registers CMD, SEED and
MAXDRAW hold, since writes to the three are dropped (20_memory.md R60, R62). -/
def Engine.LatchOk (e : Engine) : Prop :=
  ∀ l, e.phase = .busy l → l.cmd = e.cmd ∧ l.rng = e.seed ∧ l.maxdraw = e.limit

/-- The invariant of the machine's states: the STATUS invariants, the latch agreeing with the registers nothing can
write while BUSY, and the engine in its reset state while the reset input is asserted (R210). -/
structure State.Inv (s : State) : Prop where
  status : s.engine.StatusOk
  latch : s.engine.LatchOk
  held : s.resetAsserted = true → s.engine = Engine.reset

/-! ### Runs -/

/-- A step is safe if it gives a next state. -/
def SafeStep (s : State) : Prop := ∃ t, step s = .next t

/-- The state after n steps, none where a step has stopped. -/
def stepN : Nat → State → Option State
  | 0, s => some s
  | n + 1, s =>
    match step s with
    | .next t => stepN n t
    | .fault _ => none
    | .refused _ => none

/-- A run of n steps is safe if none of them stops. -/
def SafeRun (n : Nat) (s : State) : Prop := ∃ t, stepN n s = some t

/-! ### Legal accesses at an offset of the window (20_memory.md R55, R56) -/

/-- One legal bus write of word w at an offset. -/
def busWrite (off : Nat) (w : Word) (s : State) : Outcome := busAccess (.write (Config.mexpBase + off) .word w) s

/-- One legal bus read at an offset. -/
def busRead (off : Nat) (s : State) : Outcome := busAccess (.read (Config.mexpBase + off) .word) s

/-- The machine after a write that the engine has taken. -/
def State.written (e : Engine) (s : State) : State := { s with engine := e, lastResponse := some .okWrite }

/-- The machine after a read that the engine has answered with a word. -/
def State.answered (w : Word) (s : State) : State := { s with lastResponse := some (.okRead w) }

/-! ### What a command answers -/

/-- The value of a command as a function of its latch (40_engine_cycle.md R101), constructor by constructor. -/
def commandResult : Instr → Latch → Result
  | .nop => nop
  | .modpow => modpow
  | .modmul => modmul
  | .egcd => egcdCommand
  | .modinv => modinv
  | .decomp => decompCommand
  | .mrwit => mrwit
  | .mrtest rounds => mrtest rngNext rounds

/-- exec(L) of rules R101 and R105: decode, then the command. -/
def latchResult (l : Latch) : Result :=
  match decodeWord l.cmd with
  | .ok i => commandResult i l
  | .error _ => illegalCommand l

/-- The registers among RES, X, Y and AUX that a command's success completion writes (10_state.md R46). -/
def resultRegs : Instr → List WindowReg
  | .nop => []
  | .modpow | .modmul | .modinv => [.res]
  | .egcd => [.res, .x, .y]
  | .decomp | .mrwit | .mrtest _ => [.res, .aux]

/-- All registers a command's completion may write: STATUS always, SEED for MRTEST (10_state.md R46). -/
def writtenRegs : Instr → List WindowReg
  | .mrtest rounds => .status :: .seed :: resultRegs (.mrtest rounds)
  | i => .status :: resultRegs i

/-! ### Mathematical forms -/

/-- The recursive definition of egcd (41_modular_arithmetic.md R127), whose triple is `egcd`'s for all natural numbers
(R129). -/
def egcdSpec (a b : Nat) : Nat × Int × Int :=
  if _h : b = 0 then (a, 1, 0)
  else
    let r := egcdSpec b (a % b)
    (r.1, r.2.2, r.2.1 - ((a / b : Nat) : Int) * r.2.2)
termination_by b
decreasing_by exact Nat.mod_lt _ (Nat.pos_of_ne_zero _h)

/-- A witness passes its round: with n - 1 = 2^r d and d odd, a^d is 1 modulo n, or one of a^d, a^(2d), ...,
a^(2^(r-1) d) is n - 1 modulo n (42_primality.md R152, R154). -/
def PassesRound (n a : Nat) : Prop :=
  ∃ d r, n - 1 = 2 ^ r * d ∧ d % 2 = 1 ∧ (a ^ d % n = 1 ∨ ∃ i, i < r ∧ a ^ (2 ^ i * d) % n = n - 1)

/-- The generator state after j draws (R159). -/
def drawn (next : Word → Word) (rng : Word) (j : Nat) : Word := next^[j] rng

/-- The j-th draw is the first whose masked value is below the span (R161). -/
def FirstAccepted (next : Word → Word) (n : Nat) (rng : Word) (j : Nat) : Prop :=
  1 ≤ j ∧ candidate n (drawn next rng j) < witnessSpan n ∧
    ∀ i, 1 ≤ i → i < j → witnessSpan n ≤ candidate n (drawn next rng i)

/-- The rounds of MRTEST as a relation (R161, R163): k rounds still to run, the generator state, the last witness
so far, and the outcome. -/
inductive RoundsRun (next : Word → Word) (n maxdraw : Nat) : Nat → Word → Nat → Result → Prop where
  /-- All rounds passed: RES = 1 and AUX the last witness. -/
  | allPass (rng : Word) (last : Nat) :
      RoundsRun next n maxdraw 0 rng last
        (.ok { res := some 1#32, aux := some (BitVec.ofNat 32 last) } rng)
  /-- One selection took all its tries: RNG_EXHAUSTED with the state reached. -/
  | exhausted (k : Nat) (rng : Word) (last : Nat)
      (none_accepted : ∀ i, 1 ≤ i → i ≤ maxdraw → witnessSpan n ≤ candidate n (drawn next rng i)) :
      RoundsRun next n maxdraw (k + 1) rng last (.err .rngExhausted (drawn next rng maxdraw))
  /-- The drawn witness shows n composite: RES = 0 at once, AUX that witness. -/
  | composite (k : Nat) (rng : Word) (last j : Nat) (accepted : FirstAccepted next n rng j) (within : j ≤ maxdraw)
      (fails : ¬ PassesRound n (2 + candidate n (drawn next rng j))) :
      RoundsRun next n maxdraw (k + 1) rng last
        (.ok { res := some 0#32, aux := some (BitVec.ofNat 32 (2 + candidate n (drawn next rng j))) }
          (drawn next rng j))
  /-- The drawn witness passes: the next round goes on from the state reached. -/
  | pass (k : Nat) (rng : Word) (last j : Nat) (out : Result) (accepted : FirstAccepted next n rng j)
      (within : j ≤ maxdraw) (passes : PassesRound n (2 + candidate n (drawn next rng j)))
      (rest : RoundsRun next n maxdraw k (drawn next rng j) (2 + candidate n (drawn next rng j)) out) :
      RoundsRun next n maxdraw (k + 1) rng last out

end Sys2Proof.Machine
end

