-- ==== Sys2Proof/Certificates/Slice0/Obligations.lean ====
section
/-! DEFINITION. The statements about the MEXP engine, for the provers. Each docstring names the rules it formalises.
Every statement about a command has as its conclusion the next state in full, so what the command leaves unchanged
is stated with what it writes. -/

open Sys2Proof Sys2Proof.Machine

/-! ### Encoding (30_encoding.md) -/

/-- Decoding the word, the bytes or the table word of any well-formed command gives the command back (R80 to R83,
R88; the bytes in the order of the bus lanes are deduced from R51, log entry 22). -/
def Obligations.DecodeInvertsEncode : Prop :=
  ∀ i : Instr, i.wellFormed = true →
    decodeWord (encode i) = .ok i ∧ decodeBytes (encodeBytes i) = .ok i ∧
      decodeTableWord 32 (encode i).toNat = some i

/-- A word that decodes is the one word of a well-formed command: no two words mean the same (R83, R86). -/
def Obligations.DecodedWordIsTheCommandsEncoding : Prop :=
  ∀ (w : Word) (i : Instr), decodeWord w = .ok i → i.wellFormed = true ∧ encode i = w

/-- The legality test, and the 263 legal words (R85). -/
def Obligations.LegalWordsAreThe263 : Prop :=
  (∀ w : Word, legalCommand w = true ↔
    w.toNat / 2 ^ 16 = 0 ∧ w.toNat / 16 % 16 = 0 ∧ w.toNat % 16 ≤ 7 ∧
      (w.toNat % 16 = 7 ∨ w.toNat / 256 % 256 = 0)) ∧
  (∀ w : Word, legalCommand w = true ↔ w.toNat ≤ 6 ∨ ∃ k, k ≤ 255 ∧ w.toNat = 7 + k * 2 ^ 8) ∧
  (∃ ws : List Word, ws.length = 263 ∧ ws.Nodup ∧ ∀ w, w ∈ ws ↔ legalCommand w = true)

/-- The opcode map: each command's match and mask, exactly one row for each legal word, no row for an illegal one
(R83). -/
def Obligations.OneOpcodeRowSelectsEachLegalWord : Prop :=
  (∀ w : Word,
    (decodeWord w = .ok .nop ↔ w &&& 0xFFFFFFFF#32 = 0x00000000#32) ∧
    (decodeWord w = .ok .modpow ↔ w &&& 0xFFFFFFFF#32 = 0x00000001#32) ∧
    (decodeWord w = .ok .modmul ↔ w &&& 0xFFFFFFFF#32 = 0x00000002#32) ∧
    (decodeWord w = .ok .egcd ↔ w &&& 0xFFFFFFFF#32 = 0x00000003#32) ∧
    (decodeWord w = .ok .modinv ↔ w &&& 0xFFFFFFFF#32 = 0x00000004#32) ∧
    (decodeWord w = .ok .decomp ↔ w &&& 0xFFFFFFFF#32 = 0x00000005#32) ∧
    (decodeWord w = .ok .mrwit ↔ w &&& 0xFFFFFFFF#32 = 0x00000006#32) ∧
    ((∃ k, decodeWord w = .ok (.mrtest k)) ↔ w &&& 0xFFFF00FF#32 = 0x00000007#32)) ∧
  (∀ w : Word, legalCommand w = true →
    ∃ r ∈ opcodeRows, r.op = cwOp w ∧ r.selects w = true ∧ ∀ r' ∈ opcodeRows, r'.selects w = true → r' = r) ∧
  (∀ w : Word, legalCommand w = false → ∀ r ∈ opcodeRows, r.selects w = false)

/-- Words written out from the spec's opcode map and its list of illegal words decode as the spec says (R83, R86,
R88). -/
def Obligations.WordsOfTheSpecDecode : Prop :=
  decodeWord 0x00000000#32 = .ok .nop ∧ decodeWord 0x00000001#32 = .ok .modpow ∧
  decodeWord 0x00000002#32 = .ok .modmul ∧ decodeWord 0x00000003#32 = .ok .egcd ∧
  decodeWord 0x00000004#32 = .ok .modinv ∧ decodeWord 0x00000005#32 = .ok .decomp ∧
  decodeWord 0x00000006#32 = .ok .mrwit ∧ decodeWord 0x00000507#32 = .ok (.mrtest 5) ∧
  decodeWord 0x0000FF07#32 = .ok (.mrtest 255) ∧ decodeWord 0x00000008#32 = .error .reservedOpcode ∧
  decodeWord 0x00000010#32 = .error .reservedField ∧ decodeWord 0x00000101#32 = .error .roundsField ∧
  decodeWord 0x00010000#32 = .error .reservedField ∧ decodeWord 0x80000007#32 = .error .reservedField ∧
  decodeWord 0x00000117#32 = .error .reservedField ∧ decodeWord 0x00000100#32 = .error .roundsField

/-! ### The step (20_memory.md R61; 40_engine_cycle.md R100, R102, R105) -/

/-- With a command in flight whose word decodes to i, the engine's step is exec of i at that state: when the serial
order says the completion is next, or when nothing else is left in it. The word that `withFetchWord` places runs so
in the very next step (R102, R105; the serial order as data and the engine completing when it is empty are the
model's choice, log entries 1 and 2). -/
def Obligations.StepRunsTheDecodedCommand : Prop :=
  (∀ (s : State) (l : Latch) (i : Instr) (rest : List Event),
    s.resetAsserted = false → s.engine.phase = .busy l → decodeWord l.cmd = .ok i →
      (s.agenda = [] → step s = exec i s) ∧
      (s.agenda = .completion :: rest → step s = exec i { s with agenda := rest })) ∧
  (∀ (s : State) (w : Nat) (i : Instr), decodeTableWord 32 w = some i →
    step (s.withFetchWord 32 w) =
      exec i { s with engine := s.engine.accept (BitVec.ofNat 32 w), resetAsserted := false })

/-- The next event of the serial order is performed and taken off it; an IDLE engine takes no step of its own (R61,
R100; the serial order as data is the model's choice, log entries 1 and 2; a completion entry while IDLE changing
nothing but the serial order is deduced from R100, log entry 18). -/
def Obligations.StepPerformsTheNextEvent : Prop :=
  (∀ (s : State) (ev : Event) (rest : List Event),
    s.agenda = ev :: rest → step s = perform ev { s with agenda := rest }) ∧
  (∀ s : State, s.agenda = [] → s.engine.phase = .idle → step s = .next s) ∧
  (∀ (s : State) (rest : List Event), s.agenda = .completion :: rest → s.engine.phase = .idle →
    step s = .next { s with agenda := rest })

/-- Every command's meaning stops with the fault noCommandInFlight while PHASE = IDLE, where the engine has no step
(R100; stopping there by name is the model's choice, log entry 7). -/
def Obligations.NoCompletionWhileIdle : Prop :=
  ∀ (i : Instr) (s : State), s.engine.phase = .idle → exec i s = .fault .noCommandInFlight

/-- An illegal word is accepted like any other, and its completion is an error completion with ERRCODE = 1 that
writes no result register, whatever the operands (R86, R104; the serial order as data is the model's choice, log
entry 1). -/
def Obligations.IllegalWordCompletesWithIllegalCmd : Prop :=
  (∀ (s : State) (w : Word), s.resetAsserted = false → s.engine.phase = .idle → legalCommand w = false →
    busWrite 0x08 w s =
      .next (s.written { s.engine with
        cmd := w, done := false, err := false, errcode := 0#4,
        phase := .busy
          ⟨w, s.engine.opa, s.engine.opb, s.engine.opc, s.engine.seed, s.engine.limit⟩ })) ∧
  (∀ (s : State) (l : Latch) (rest : List Event), s.resetAsserted = false → s.engine.phase = .busy l →
    legalCommand l.cmd = false → s.agenda = .completion :: rest →
    step s = .next { s with
      engine := { s.engine with seed := l.rng, done := true, err := true, errcode := 1#4, phase := .idle }
      agenda := rest })

/-! ### The register window (10_state.md R21 to R31; 20_memory.md R50 to R62) -/

/-- A legal write of any word to CMD while IDLE latches the operands and clears DONE, ERR and ERRCODE, WERR, the
result registers and SEED unchanged; an illegal word so accepted is refused at its completion with ILLEGAL_CMD; and
RES, X, Y, AUX and SEED are unchanged for as long as the command is in flight (R60). -/
def Obligations.AcceptLatchesTheOperands : Prop :=
  (∀ (s : State) (w : Word), s.resetAsserted = false → s.engine.phase = .idle →
    ∃ t : State, busWrite 0x08 w s = .next t ∧
      t = s.written { s.engine with
        cmd := w, done := false, err := false, errcode := 0#4,
        phase := .busy
          { cmd := w, a := s.engine.opa, b := s.engine.opb, c := s.engine.opc,
            rng := s.engine.seed, maxdraw := s.engine.limit } } ∧
      (legalCommand w = false →
        engineEvent t = .next { t with
          engine := { t.engine with done := true, err := true, errcode := 1#4, phase := .idle } })) ∧
  (∀ (s t : State) (l l' : Latch), s.engine.phase = .busy l → step s = .next t → t.engine.phase = .busy l' →
    t.engine.res = s.engine.res ∧ t.engine.x = s.engine.x ∧ t.engine.y = s.engine.y ∧
      t.engine.aux = s.engine.aux ∧ t.engine.seed = s.engine.seed)

/-- A legal write to CMD, SEED or MAXDRAW while BUSY is dropped and sets WERR; the command in flight is
unaffected. WERR then stays until a write of 1 to STATUS bit 4 or a reset, and writes to CTRL, STATUS, OPA, OPB and
OPC take effect (R62). -/
def Obligations.BusyWritesAreDropped : Prop :=
  (∀ (s : State) (l : Latch) (w : Word) (off : Nat), s.resetAsserted = false → s.engine.phase = .busy l →
    off ∈ [0x08, 0x28, 0x2C] →
      busWrite off w s = .next (s.written { s.engine with werr := true })) ∧
  (∀ s t : State, step s = .next t → s.engine.werr = true → t.engine.werr = false →
    t.engine = Engine.reset ∨ ∃ w : Word, w.getLsbD 4 = true ∧ t.engine = s.engine.writeStatus w) ∧
  (∀ (s : State) (l : Latch) (w : Word), s.resetAsserted = false → s.engine.phase = .busy l →
    busWrite 0x0C w s = .next (s.written { s.engine with opa := w }) ∧
    busWrite 0x10 w s = .next (s.written { s.engine with opb := w }) ∧
    busWrite 0x14 w s = .next (s.written { s.engine with opc := w }) ∧
    busWrite 0x04 w s = .next (s.written { s.engine with
      done := s.engine.done && !w.getLsbD 1, werr := s.engine.werr && !w.getLsbD 4 }) ∧
    busWrite 0x00 w s = .next (s.written
      (if w.getLsbD 1 then Engine.reset else { s.engine with irqEn := w.getLsbD 0 })))

/-- The effect of a legal write at every offset, in either phase (R56; less the accept and the dropped writes,
which two statements of their own give). -/
def Obligations.WriteEffectsByOffset : Prop :=
  ∀ (s : State) (w : Word), s.resetAsserted = false →
    (w.getLsbD 1 = false → busWrite 0x00 w s = .next (s.written { s.engine with irqEn := w.getLsbD 0 })) ∧
    (w.getLsbD 1 = true → busWrite 0x00 w s = .next (s.written Engine.reset)) ∧
    busWrite 0x04 w s = .next (s.written { s.engine with
      done := s.engine.done && !w.getLsbD 1, werr := s.engine.werr && !w.getLsbD 4 }) ∧
    busWrite 0x0C w s = .next (s.written { s.engine with opa := w }) ∧
    busWrite 0x10 w s = .next (s.written { s.engine with opb := w }) ∧
    busWrite 0x14 w s = .next (s.written { s.engine with opc := w }) ∧
    (s.engine.phase = .idle → busWrite 0x28 w s = .next (s.written { s.engine with seed := w })) ∧
    (s.engine.phase = .idle →
      busWrite 0x2C w s = .next (s.written { s.engine with limit := BitVec.ofNat 16 (w.toNat % 2 ^ 16) })) ∧
    ∀ off ∈ [0x18, 0x1C, 0x20, 0x24, 0x30, 0x34, 0x38, 0x3C], busWrite off w s = .next (s.written s.engine)

/-- The read data of every offset (R55). -/
def Obligations.ReadDataByOffset : Prop :=
  ∀ s : State, s.resetAsserted = false →
    busRead 0x00 s = .next (s.answered (if s.engine.irqEn then 1#32 else 0#32)) ∧
    busRead 0x04 s = .next (s.answered s.engine.statusWord) ∧
    busRead 0x08 s = .next (s.answered s.engine.cmd) ∧
    busRead 0x0C s = .next (s.answered s.engine.opa) ∧
    busRead 0x10 s = .next (s.answered s.engine.opb) ∧
    busRead 0x14 s = .next (s.answered s.engine.opc) ∧
    busRead 0x18 s = .next (s.answered s.engine.res) ∧
    busRead 0x1C s = .next (s.answered s.engine.x) ∧
    busRead 0x20 s = .next (s.answered s.engine.y) ∧
    busRead 0x24 s = .next (s.answered s.engine.aux) ∧
    busRead 0x28 s = .next (s.answered s.engine.seed) ∧
    busRead 0x2C s = .next (s.answered (BitVec.ofNat 32 s.engine.limit.toNat)) ∧
    busRead 0x30 s = .next (s.answered 0x4D455850#32) ∧
    ∀ off ∈ [0x34, 0x38, 0x3C], busRead off s = .next (s.answered 0x00000000#32)

/-- A read of any width at any address changes no state of the machine; only the answer is new (R54). -/
def Obligations.ReadsHaveNoSideEffects : Prop :=
  ∀ (s t : State) (addr : Nat) (size : AccessSize), busAccess (.read addr size) s = .next t →
    t.engine = s.engine ∧ t.resetAsserted = s.resetAsserted ∧ t.agenda = s.agenda ∧ t.hosts = s.hosts

/-- The fields of STATUS, every other bit reading 0 (R23). -/
def Obligations.StatusFieldsAtTheirBits : Prop :=
  ∀ (e : Engine) (k : Nat), k < 32 →
    e.statusWord.getLsbD k =
      if k = 0 then e.isBusy
      else if k = 1 then e.done
      else if k = 2 then e.err
      else if k = 4 then e.werr
      else if 8 ≤ k ∧ k ≤ 11 then e.errcode.getLsbD (k - 8)
      else false

/-- A sub-word or misaligned access in the window is answered with a bus error, a read with data 0, and changes no
state (R52, R182). -/
def Obligations.IllegalAccessChangesNothing : Prop :=
  ∀ (s : State) (off : Nat) (size : AccessSize) (w : Word), s.resetAsserted = false → off < 64 →
    (size ≠ .word ∨ off % 4 ≠ 0) →
      busAccess (.read (Config.mexpBase + off) size) s =
        .next { s with lastResponse := some (.errorRead 0x00000000#32) } ∧
      busAccess (.write (Config.mexpBase + off) size w) s = .next { s with lastResponse := some .errorWrite }

/-- The window is the 64 bytes from MEXP_BASE, a multiple of 64; the engine does not respond to an access outside
it and keeps its state (R50; an access without a response as an event of the machine is the model's choice, log
entry 9). -/
def Obligations.NoResponseOutsideTheWindow : Prop :=
  Config.mexpBase % 64 = 0 ∧
  ∀ (s : State) (a : Access), (a.addr < Config.mexpBase ∨ Config.mexpBase + 0x3F < a.addr) →
    busAccess a s = .next { s with lastResponse := none }

/-- A write to OPA, OPB or OPC, or to SEED or MAXDRAW while IDLE, leaves every byte of the window outside that
register as it was (R54, R56). -/
def Obligations.OperandWriteLeavesOtherBytes : Prop :=
  ∀ (s t : State) (r : WindowReg) (w : Word) (addr : Nat), s.resetAsserted = false →
    (r ∈ [.opa, .opb, .opc] ∨ r ∈ [.seed, .maxdraw] ∧ s.engine.phase = .idle) →
    busWrite r.off w s = .next t →
    (addr < Config.mexpBase + r.off ∨ Config.mexpBase + r.off + 4 ≤ addr) →
      t.engine.byteAt addr = s.engine.byteAt addr

/-- The interrupt output: its level, its masking, and what raises and clears it (R41, R185). -/
def Obligations.InterruptIsEnableAndDone : Prop :=
  (∀ e : Engine, e.irq = true ↔ e.irqEn = true ∧ e.done = true) ∧
  Engine.reset.irq = false ∧
  (∀ (e : Engine) (r : Result), (e.commit r).irq = e.irqEn ∧ (e.commit r).done = true) ∧
  (∀ (e : Engine) (w : Word), w.getLsbD 1 = true → (e.writeReg .status w).irq = false) ∧
  (∀ (e : Engine) (w : Word), e.phase = .idle → (e.writeReg .cmd w).irq = false) ∧
  (∀ e : Engine, (e.writeReg .ctrl 0x00000001#32).irq = e.done ∧ (e.writeReg .ctrl 0x00000000#32).irq = false) ∧
  (∀ e : Engine, e.irq = { e with werr := !e.werr }.irq)

/-! ### Reset (10_state.md R45; 70_reset_and_hazards.md R210, R212) -/

/-- The reset values; CTRL.SRST and ID read the same in every state (R45). -/
def Obligations.ResetValues : Prop :=
  State.reset.engine.phase = .idle ∧ State.reset.engine.irqEn = false ∧ State.reset.engine.isBusy = false ∧
  State.reset.engine.done = false ∧ State.reset.engine.err = false ∧ State.reset.engine.werr = false ∧
  State.reset.engine.errcode = 0x0#4 ∧ State.reset.engine.cmd = 0x00000000#32 ∧
  State.reset.engine.opa = 0x00000000#32 ∧ State.reset.engine.opb = 0x00000000#32 ∧
  State.reset.engine.opc = 0x00000000#32 ∧ State.reset.engine.res = 0x00000000#32 ∧
  State.reset.engine.x = 0x00000000#32 ∧ State.reset.engine.y = 0x00000000#32 ∧
  State.reset.engine.aux = 0x00000000#32 ∧ State.reset.engine.seed = 0x00000001#32 ∧
  State.reset.engine.limit = 0x0040#16 ∧ State.reset.engine.irq = false ∧
  State.reset.engine.readReg .ctrl = 0x00000000#32 ∧
  ∀ e : Engine, (e.readReg .ctrl).getLsbD 1 = false ∧ e.readReg .id = 0x4D455850#32

/-- From any state whatever, asserting the reset input and releasing it leaves the engine in the reset state, a
command in flight is lost, and an access to the window in between is refused (R210; the input as a level and the
refusal are the model's choice, log entries 10 and 18). -/
def Obligations.HardwareResetFromAnyState : Prop :=
  (∀ (s : State) (rest : List Event), s.agenda = .assertReset :: rest →
    step s = .next { s with engine := Engine.reset, resetAsserted := true, agenda := rest }) ∧
  (∀ (s : State) (rest : List Event), s.agenda = .releaseReset :: rest →
    step s = .next { s with engine := Engine.reset, resetAsserted := false, agenda := rest }) ∧
  (∀ (s : State) (rest : List Event), s.resetAsserted = true → s.agenda = .completion :: rest →
    step s = .next { s with agenda := rest }) ∧
  (∀ (s : State) (a : Access) (off : Nat), s.resetAsserted = true → windowOffset a.addr = some off →
    busAccess a s = .refused .accessDuringReset)

/-- A legal write to CTRL with bit 1 = 1 puts the engine into the reset state in either phase, IRQ_EN included
whatever bit 0 is; CTRL then reads 0 and irq is low; a command in flight never completes. No other access ends a
command in flight (R212). -/
def Obligations.SoftResetInEitherPhase : Prop :=
  (∀ (s : State) (w : Word), s.resetAsserted = false → w.getLsbD 1 = true →
    busWrite 0x00 w s = .next (s.written Engine.reset) ∧
    (s.written Engine.reset).engine.readReg .ctrl = 0x00000000#32 ∧
    (s.written Engine.reset).engine.irq = false ∧
    engineEvent (s.written Engine.reset) = .next (s.written Engine.reset)) ∧
  (∀ (s t : State) (l : Latch) (a : Access), s.engine.phase = .busy l → busAccess a s = .next t →
    t.engine.phase = .busy l ∨ ∃ w : Word, a = .write (Config.mexpBase + 0x00) .word w ∧ w.getLsbD 1 = true)

/-- A write to STATUS clears DONE by bit 1 and WERR by bit 4 and changes nothing else, so ERR and ERRCODE stay
readable; while BUSY, in the invariant's states, a W1C of DONE has no effect (R23, R24, R224). -/
def Obligations.StatusWriteClearsDoneAndWerrOnly : Prop :=
  (∀ (s : State) (w : Word), s.resetAsserted = false →
    busWrite 0x04 w s = .next (s.written { s.engine with
      done := if w.getLsbD 1 then false else s.engine.done
      werr := if w.getLsbD 4 then false else s.engine.werr })) ∧
  (∀ (s : State) (l : Latch), s.Inv → s.resetAsserted = false → s.engine.phase = .busy l →
    busWrite 0x04 0x00000002#32 s = .next (s.written s.engine))

/-! ### The commands (40_engine_cycle.md R106; 41_modular_arithmetic.md; 42_primality.md) -/

/-- NOP completes with nothing but STATUS written, and any other word with OP = 0 is illegal and reports
ILLEGAL_CMD (R106). -/
def Obligations.NopCompletes : Prop :=
  encode .nop = 0x00000000#32 ∧
  (∀ (s : State) (l : Latch), s.engine.phase = .busy l →
    exec .nop s = .next { s with
      engine := { s.engine with seed := l.rng, done := true, err := false, errcode := 0#4, phase := .idle } }) ∧
  (∀ w : Word, w.toNat % 16 = 0 → w ≠ 0x00000000#32 → legalCommand w = false ∧
    ∀ (s : State) (l : Latch), s.resetAsserted = false → s.engine.phase = .busy l → l.cmd = w →
      engineEvent s = .next { s with
        engine := { s.engine with seed := l.rng, done := true, err := true, errcode := 1#4, phase := .idle } })

/-- MODPOW's result is L.a ** L.b mod L.c, with 0 ** 0 = 1; modulus 0 is refused with ZERO_MODULUS and writes no
result register (R121, R122, R124). -/
def Obligations.ModpowIsThePowerModulo : Prop :=
  encode .modpow = 0x00000001#32 ∧
  (∀ (s : State) (l : Latch), s.engine.phase = .busy l → l.c ≠ 0#32 →
    exec .modpow s = .next { s with
      engine := { s.engine with
        res := BitVec.ofNat 32 (l.a.toNat ^ l.b.toNat % l.c.toNat)
        seed := l.rng, done := true, err := false, errcode := 0#4, phase := .idle } }) ∧
  (∀ (s : State) (l : Latch), s.engine.phase = .busy l → l.c = 0#32 →
    exec .modpow s = .next { s with
      engine := { s.engine with seed := l.rng, done := true, err := true, errcode := 2#4, phase := .idle } })

/-- MODMUL's result is the exact product modulo L.c; modulus 0 is refused with ZERO_MODULUS (R120, R125). -/
def Obligations.ModmulIsTheProductModulo : Prop :=
  encode .modmul = 0x00000002#32 ∧
  (∀ (s : State) (l : Latch), s.engine.phase = .busy l → l.c ≠ 0#32 →
    exec .modmul s = .next { s with
      engine := { s.engine with
        res := BitVec.ofNat 32 (l.a.toNat * l.b.toNat % l.c.toNat)
        seed := l.rng, done := true, err := false, errcode := 0#4, phase := .idle } }) ∧
  (∀ (s : State) (l : Latch), s.engine.phase = .busy l → l.c = 0#32 →
    exec .modmul s = .next { s with
      engine := { s.engine with seed := l.rng, done := true, err := true, errcode := 2#4, phase := .idle } })

/-- EGCD completes for every pair of operands with the triple of the recursive definition, X and Y as u32 of the
signed coefficients; AUX keeps its value. The iterative form and the recursive definition give the same triple for
all natural numbers (R127, R128, R129). -/
def Obligations.EgcdReturnsTheRecursiveTriple : Prop :=
  encode .egcd = 0x00000003#32 ∧
  (∀ (s : State) (l : Latch), s.engine.phase = .busy l →
    exec .egcd s = .next { s with
      engine := { s.engine with
        res := BitVec.ofNat 32 (egcdSpec l.a.toNat l.b.toNat).1
        x := BitVec.ofInt 32 (egcdSpec l.a.toNat l.b.toNat).2.1
        y := BitVec.ofInt 32 (egcdSpec l.a.toNat l.b.toNat).2.2
        seed := l.rng, done := true, err := false, errcode := 0#4, phase := .idle } }) ∧
  (∀ a b : Nat, egcd a b = egcdSpec a b)

/-- EGCD's postconditions: RES is the gcd, the signed readings of X and Y satisfy Bezout's identity exactly, and
L.b = 0 gives (L.a, 1, 0) (R132). -/
def Obligations.EgcdSatisfiesBezout : Prop :=
  ∀ (s : State) (l : Latch), s.engine.phase = .busy l →
    ∃ t, exec .egcd s = .next t ∧ t.engine.err = false ∧
      t.engine.res.toNat = Nat.gcd l.a.toNat l.b.toNat ∧
      (l.a.toNat : Int) * s32 t.engine.x + (l.b.toNat : Int) * s32 t.engine.y = t.engine.res.toNat ∧
      (l.b = 0#32 → t.engine.res = l.a ∧ t.engine.x = 1#32 ∧ t.engine.y = 0#32)

/-- EGCD's corner cases: (0, 0), one operand 0, equal operands, and L.a < L.b, where the triple is that of the
swapped pair with x and y exchanged (R131). -/
def Obligations.EgcdCornerCases : Prop :=
  ∀ (s t : State) (l : Latch), s.engine.phase = .busy l → exec .egcd s = .next t →
    (l.b = 0#32 → t.engine.res = l.a ∧ t.engine.x = 1#32 ∧ t.engine.y = 0#32) ∧
    (t.engine.res = 0#32 ↔ l.a = 0#32 ∧ l.b = 0#32) ∧
    (l.a = 0#32 → l.b ≠ 0#32 → t.engine.res = l.b ∧ t.engine.x = 0#32 ∧ t.engine.y = 1#32) ∧
    (l.a = l.b → l.b ≠ 0#32 → t.engine.res = l.a ∧ t.engine.x = 0#32 ∧ t.engine.y = 1#32) ∧
    (l.a.toNat < l.b.toNat →
      ∃ t', exec .egcd { s with engine := { s.engine with phase := .busy { l with a := l.b, b := l.a } } } =
          .next t' ∧
        t.engine.res = t'.engine.res ∧ t.engine.x = t'.engine.y ∧ t.engine.y = t'.engine.x)

/-- The loop of EGCD takes at most 47 iterations on 32-bit operands: any larger bound gives the same triple
(R107). -/
def Obligations.EgcdTakesAtMost47Iterations : Prop :=
  ∀ a b bound : Nat, a < 2 ^ 32 → b < 2 ^ 32 → 47 ≤ bound → egcdLoop bound a b 1 0 0 1 = egcd a b

/-- MODINV's result is the unique d in [0, m) with e d = 1 modulo m; gcd(e, m) ≠ 1 is refused with NO_INVERSE, and
modulus 0 with ZERO_MODULUS before the gcd test; X, Y and AUX keep their values (R133, R134, R135). -/
def Obligations.ModinvIsTheInverseModulo : Prop :=
  encode .modinv = 0x00000004#32 ∧
  (∀ (s : State) (l : Latch), s.engine.phase = .busy l → l.b ≠ 0#32 → Nat.gcd l.a.toNat l.b.toNat = 1 →
    ∃ d : Nat, d < l.b.toNat ∧ l.a.toNat * d % l.b.toNat = 1 % l.b.toNat ∧
      (∀ d' : Nat, d' < l.b.toNat → l.a.toNat * d' % l.b.toNat = 1 % l.b.toNat → d' = d) ∧
      exec .modinv s = .next { s with
        engine := { s.engine with
          res := BitVec.ofNat 32 d
          seed := l.rng, done := true, err := false, errcode := 0#4, phase := .idle } }) ∧
  (∀ (s : State) (l : Latch), s.engine.phase = .busy l → l.b ≠ 0#32 → Nat.gcd l.a.toNat l.b.toNat ≠ 1 →
    exec .modinv s = .next { s with
      engine := { s.engine with seed := l.rng, done := true, err := true, errcode := 3#4, phase := .idle } }) ∧
  (∀ (s : State) (l : Latch), s.engine.phase = .busy l → l.b = 0#32 →
    exec .modinv s = .next { s with
      engine := { s.engine with seed := l.rng, done := true, err := true, errcode := 2#4, phase := .idle } })

/-- DECOMP writes the odd d and the r ≤ 31 with n - 1 = 2^r d; n below 2 is refused with OPERAND_RANGE (R150, R151,
R152). -/
def Obligations.DecompSplitsNMinusOne : Prop :=
  encode .decomp = 0x00000005#32 ∧
  (∀ (s : State) (l : Latch), s.engine.phase = .busy l → 2 ≤ l.a.toNat →
    ∃ d r : Nat, d % 2 = 1 ∧ r ≤ 31 ∧ l.a.toNat - 1 = 2 ^ r * d ∧
      exec .decomp s = .next { s with
        engine := { s.engine with
          res := BitVec.ofNat 32 d, aux := BitVec.ofNat 32 r
          seed := l.rng, done := true, err := false, errcode := 0#4, phase := .idle } }) ∧
  (∀ (s : State) (l : Latch), s.engine.phase = .busy l → l.a.toNat < 2 →
    exec .decomp s = .next { s with
      engine := { s.engine with seed := l.rng, done := true, err := true, errcode := 5#4, phase := .idle } })

/-- MRWIT on a shortcut n gives the shortcut's verdict and AUX = 0, whatever the witness (R153, R156). -/
def Obligations.MrwitShortcuts : Prop :=
  ∀ (s : State) (l : Latch) (verdict : Word), s.engine.phase = .busy l →
    ((l.a.toNat ≤ 1 ∧ verdict = 0#32) ∨ ((l.a.toNat = 2 ∨ l.a.toNat = 3) ∧ verdict = 1#32) ∨
      (2 < l.a.toNat ∧ l.a.toNat % 2 = 0 ∧ verdict = 0#32)) →
    exec .mrwit s = .next { s with
      engine := { s.engine with
        res := verdict, aux := 0#32
        seed := l.rng, done := true, err := false, errcode := 0#4, phase := .idle } }

/-- MRWIT on an odd n from 5 up: a witness in [2, n-2] gives RES = 1 exactly when it passes the round, and AUX the
witness; any other witness is refused with WITNESS_RANGE (R154, R156). -/
def Obligations.MrwitRunsOneRound : Prop :=
  encode .mrwit = 0x00000006#32 ∧
  (∀ (s : State) (l : Latch), s.engine.phase = .busy l → 5 ≤ l.a.toNat → l.a.toNat % 2 = 1 →
    2 ≤ l.b.toNat → l.b.toNat ≤ l.a.toNat - 2 →
    ∃ verdict : Word, (verdict = 1#32 ∧ PassesRound l.a.toNat l.b.toNat ∨
        verdict = 0#32 ∧ ¬ PassesRound l.a.toNat l.b.toNat) ∧
      exec .mrwit s = .next { s with
        engine := { s.engine with
          res := verdict, aux := l.b
          seed := l.rng, done := true, err := false, errcode := 0#4, phase := .idle } }) ∧
  (∀ (s : State) (l : Latch), s.engine.phase = .busy l → 5 ≤ l.a.toNat → l.a.toNat % 2 = 1 →
    (l.b.toNat < 2 ∨ l.a.toNat - 2 < l.b.toNat) →
    exec .mrwit s = .next { s with
      engine := { s.engine with seed := l.rng, done := true, err := true, errcode := 4#4, phase := .idle } })

/-- RNG_NEXT is xorshift32: its shifts, its first draws from 1, and its fixed point 0, from which every draw is 0
and every witness is 2 (R160). -/
def Obligations.GeneratorIsXorshift32 : Prop :=
  (∀ x : Word, ∃ y z : Word,
    y = x ^^^ BitVec.ofNat 32 (x.toNat * 2 ^ 13) ∧ z = y ^^^ BitVec.ofNat 32 (y.toNat / 2 ^ 17) ∧
      rngNext x = z ^^^ BitVec.ofNat 32 (z.toNat * 2 ^ 5)) ∧
  rngNext 0#32 = 0#32 ∧
  drawn rngNext 1#32 1 = 0x00042021#32 ∧ drawn rngNext 1#32 2 = 0x04080601#32 ∧
  drawn rngNext 1#32 3 = 0x9DCCA8C5#32 ∧ drawn rngNext 1#32 4 = 0x1255994F#32 ∧
  drawn rngNext 1#32 5 = 0x8EF917D1#32 ∧
  (∀ j : Nat, drawn rngNext 0#32 j = 0#32) ∧
  (∀ n maxdraw : Nat, 5 ≤ n → n % 2 = 1 → 1 ≤ maxdraw → drawWitness rngNext n maxdraw 0#32 = (some 2, 0#32))

/-- Witness selection, for every generator: the first of at most maxdraw draws whose masked value is below the span,
plus 2, with the state reached; or exhaustion after maxdraw draws, none of them accepted (R161). -/
def Obligations.WitnessIsTheFirstAcceptedDraw : Prop :=
  ∀ (next : Word → Word) (n maxdraw : Nat) (rng : Word), 5 ≤ n → n % 2 = 1 →
    ((∃ j, FirstAccepted next n rng j ∧ j ≤ maxdraw ∧
        drawWitness next n maxdraw rng =
          (some (2 + (drawn next rng j).toNat % 2 ^ bitlen (n - 3 - 1)), drawn next rng j)) ∨
      (∀ j, 1 ≤ j → j ≤ maxdraw → n - 3 ≤ (drawn next rng j).toNat % 2 ^ bitlen (n - 3 - 1)) ∧
        drawWitness next n maxdraw rng = (none, drawn next rng maxdraw))

/-- Properties of selection, for every generator: an accepted witness lies in [2, n-2], every value below the span is
within the mask, the mask is below 2 span - 1, a power-of-two span rejects no draw, and no try is made with
maxdraw = 0 (R162). -/
def Obligations.WitnessSelectionBounds : Prop :=
  ∀ (next : Word → Word) (n maxdraw : Nat) (rng : Word), 5 ≤ n → n % 2 = 1 →
    (∀ (a : Nat) (rng' : Word), drawWitness next n maxdraw rng = (some a, rng') → 2 ≤ a ∧ a ≤ n - 2) ∧
    witnessSpan n - 1 ≤ witnessMask n ∧ witnessMask n < 2 * witnessSpan n - 1 ∧
    (∀ j : Nat, n = 2 ^ j + 3 → 1 ≤ maxdraw →
      ∃ a : Nat, drawWitness next n maxdraw rng = (some a, next rng)) ∧
    drawWitness next n 0 rng = (none, rng)

/-- MRTEST on a shortcut n gives the shortcut's verdict and AUX = 0 for every round count, draws nothing and leaves
the generator state as it was (R153, R163, R164). -/
def Obligations.MrtestShortcuts : Prop :=
  ∀ (s : State) (l : Latch) (k : Nat) (verdict : Word), s.engine.phase = .busy l →
    ((l.a.toNat ≤ 1 ∧ verdict = 0#32) ∨ ((l.a.toNat = 2 ∨ l.a.toNat = 3) ∧ verdict = 1#32) ∨
      (2 < l.a.toNat ∧ l.a.toNat % 2 = 0 ∧ verdict = 0#32)) →
    exec (.mrtest k) s = .next { s with
      engine := { s.engine with
        res := verdict, aux := 0#32
        seed := l.rng, done := true, err := false, errcode := 0#4, phase := .idle } }

/-- MRTEST on an odd n from 5 up completes with the outcome of its rounds, as the relation `RoundsRun` gives it from
the draws and the mathematical round, and the outcome is unique (R161, R163). -/
def Obligations.MrtestRunsItsRounds : Prop :=
  ∀ (s : State) (l : Latch) (k : Nat), s.engine.phase = .busy l → 5 ≤ l.a.toNat → l.a.toNat % 2 = 1 →
    ∃ out, RoundsRun rngNext l.a.toNat l.maxdraw.toNat k l.rng 0 out ∧
      (∀ out', RoundsRun rngNext l.a.toNat l.maxdraw.toNat k l.rng 0 out' → out' = out) ∧
      exec (.mrtest k) s = .next { s with engine := s.engine.commit out }

/-- MRTEST with ROUNDS = 0 on an odd n from 5 up gives RES = 1 and AUX = 0 with no draw and no error; in the
invariant's states SEED is unchanged (R165). -/
def Obligations.MrtestWithNoRounds : Prop :=
  ∀ (s : State) (l : Latch), s.engine.phase = .busy l → 5 ≤ l.a.toNat → l.a.toNat % 2 = 1 →
    exec (.mrtest 0) s = .next { s with
      engine := { s.engine with
        res := 1#32, aux := 0#32
        seed := l.rng, done := true, err := false, errcode := 0#4, phase := .idle } } ∧
      (s.Inv → l.rng = s.engine.seed)

/-- MRTEST with at least one try for each witness, on an n whose span is a power of two, never exhausts its tries:
it completes without an error (R162, R163). -/
def Obligations.MrtestCompletesOnPowerOfTwoSpans : Prop :=
  ∀ (s : State) (l : Latch) (k j : Nat), s.engine.phase = .busy l → 1 ≤ j → l.a.toNat = 2 ^ j + 3 →
    1 ≤ l.maxdraw.toNat →
    ∃ t, exec (.mrtest k) s = .next t ∧ t.engine.err = false ∧ t.engine.done = true ∧
      (t.engine.res = 0#32 ∨ t.engine.res = 1#32) ∧ t.engine.opa = s.engine.opa

/-- With MAXDRAW = 0, an odd n from 5 up and at least one round, MRTEST raises RNG_EXHAUSTED at once: only STATUS is
written and the generator state is as it was (R164). -/
def Obligations.MrtestExhaustedAtOnce : Prop :=
  ∀ (s : State) (l : Latch) (k : Nat), s.engine.phase = .busy l → 5 ≤ l.a.toNat → l.a.toNat % 2 = 1 →
    l.maxdraw = 0#16 → 1 ≤ k →
    exec (.mrtest k) s = .next { s with
      engine := { s.engine with seed := l.rng, done := true, err := true, errcode := 6#4, phase := .idle } }

/-- One round: a prime passes with every witness, so a witness that fails shows n composite (R155). -/
def Obligations.PrimesPassEveryRound : Prop :=
  ∀ n a : Nat, 5 ≤ n → n.Prime → 2 ≤ a → a ≤ n - 2 → mrRound n (decomp n).1 (decomp n).2 a = true

/-- The correctness of MRTEST, for every generator, every round count and every MAXDRAW: if it completes without
error and n is prime then RES = 1, and if RES = 0 then n is not prime. The converse does not hold (R166). -/
def Obligations.MrtestIsSoundForEveryGenerator : Prop :=
  (∀ (next : Word → Word) (k : Nat) (s t : State) (l : Latch), s.engine.phase = .busy l →
    complete (mrtest next k) s = .next t → t.engine.err = false →
      (l.a.toNat.Prime → t.engine.res = 1#32) ∧ (t.engine.res = 0#32 → ¬ l.a.toNat.Prime)) ∧
  (∀ (k : Nat) (s : State), exec (.mrtest k) s = complete (mrtest rngNext k) s) ∧
  (∃ (s t : State) (l : Latch), s.engine.phase = .busy l ∧ exec (.mrtest 2) s = .next t ∧ t.engine.err = false ∧
    t.engine.res = 1#32 ∧ ¬ l.a.toNat.Prime)

/-! ### What commands leave alone (10_state.md R31, R46; 40_engine_cycle.md R100, R101) -/

/-- No command's completion, with or without an error, changes CMD, the operand registers, IRQ_EN, WERR, MAXDRAW or
anything outside the engine; ERR, DONE and BUSY tell the outcome; and in the invariant's states SEED changes only by
MRTEST (R46, R103, R104). -/
def Obligations.CompletionFrame : Prop :=
  ∀ (i : Instr) (s t : State), exec i s = .next t →
    t.resetAsserted = s.resetAsserted ∧ t.agenda = s.agenda ∧ t.hosts = s.hosts ∧
    t.lastResponse = s.lastResponse ∧
    t.engine.cmd = s.engine.cmd ∧ t.engine.opa = s.engine.opa ∧ t.engine.opb = s.engine.opb ∧
    t.engine.opc = s.engine.opc ∧ t.engine.irqEn = s.engine.irqEn ∧ t.engine.werr = s.engine.werr ∧
    t.engine.limit = s.engine.limit ∧ t.engine.done = true ∧ t.engine.phase = .idle ∧
    (t.engine.err = false → t.engine.errcode = 0#4) ∧
    (s.Inv → (∀ k, i ≠ .mrtest k) → t.engine.seed = s.engine.seed)

/-- A success completion of each command writes the result registers the spec lists for it and no others, and an
error completion writes none of them (R31, R46). -/
def Obligations.ResultRegistersByCommand : Prop :=
  ∀ (i : Instr) (s t : State), exec i s = .next t →
    (t.engine.err = true →
      t.engine.res = s.engine.res ∧ t.engine.x = s.engine.x ∧ t.engine.y = s.engine.y ∧
        t.engine.aux = s.engine.aux) ∧
    (i = .nop → t.engine.res = s.engine.res) ∧
    (i ≠ .egcd → t.engine.x = s.engine.x ∧ t.engine.y = s.engine.y) ∧
    (i ∈ [.nop, .modpow, .modmul, .egcd, .modinv] → t.engine.aux = s.engine.aux)

/-- In the invariant's states a command's completion leaves every byte of the window as it was, but for the bytes of
STATUS and of the registers the spec lists for the command (R46). -/
def Obligations.CompletionLeavesOtherBytes : Prop :=
  ∀ (i : Instr) (s t : State) (addr : Nat), s.Inv → exec i s = .next t →
    (∀ r ∈ writtenRegs i, addr < Config.mexpBase + r.off ∨ Config.mexpBase + r.off + 4 ≤ addr) →
      t.engine.byteAt addr = s.engine.byteAt addr

/-- exec(L) is a total function of the latch alone: whatever the registers hold, a command's completion commits one
outcome that the latch determines (R101). -/
def Obligations.OutcomeDependsOnTheLatchOnly : Prop :=
  ∀ (i : Instr) (l : Latch), ∃ out : Result, ∀ s : State, s.engine.phase = .busy l →
    exec i s = .next { s with engine := s.engine.commit out }

/-- An operand a command does not use cannot change its result (R84). Nor can the latched word: `exec` takes MRTEST's
count from the decoded instruction, which is L.cmd[15:8] on every step (R163; deduced, log entry 21). -/
def Obligations.UnusedOperandsDoNotMatter : Prop :=
  ∀ (i : Instr) (s : State) (l l' : Latch), s.engine.phase = .busy l →
    l'.rng = l.rng → l'.maxdraw = l.maxdraw → (i ≠ .nop → l'.a = l.a) →
    (i ∈ [.modpow, .modmul, .egcd, .modinv, .mrwit] → l'.b = l.b) →
    (i ∈ [.modpow, .modmul] → l'.c = l.c) →
      exec i { s with engine := { s.engine with phase := .busy l' } } = exec i s

/-! ### Whole-machine rules -/

/-- Every step keeps the invariant: the STATUS invariants, the latch in agreement with CMD, SEED and MAXDRAW while
BUSY, and the reset state while the reset input is asserted (R24, R60, R62, R210; what a step is is the model's
choice, log entries 1, 2, 10 and 18). -/
def Obligations.StepKeepsTheInvariant : Prop :=
  ∀ s t : State, s.Inv → step s = .next t → t.Inv

/-- The state after reset satisfies the invariant (R24, R45). -/
def Obligations.ResetSatisfiesTheInvariant : Prop := State.reset.Inv

/-- What any step can do to a command in flight: it goes on with the same latch and with CMD, RES, X, Y, AUX, SEED and
MAXDRAW as before; or it completes with exec(L) of that latch; or a reset discards it (R100, R102, R210, R212, R220;
what a step is is the model's choice, log entries 1, 2 and 18). -/
def Obligations.CommandInFlightEndsByCompletionOrReset : Prop :=
  ∀ (s t : State) (l : Latch), s.engine.phase = .busy l → step s = .next t →
    (t.engine.phase = .busy l ∧ t.engine.cmd = s.engine.cmd ∧ t.engine.res = s.engine.res ∧
      t.engine.x = s.engine.x ∧ t.engine.y = s.engine.y ∧ t.engine.aux = s.engine.aux ∧
      t.engine.seed = s.engine.seed ∧ t.engine.limit = s.engine.limit) ∨
    t.engine = s.engine.commit (latchResult l) ∨
    t.engine = Engine.reset

/-- Between completions and resets no step of any agent changes RES, X, Y or AUX, so a host that reads the four after
DONE and before its next command reads one completion's values (R31, R53, R100; what a step is is the model's choice,
log entries 1, 2 and 18). -/
def Obligations.ResultsChangeOnlyAtCompletionOrReset : Prop :=
  ∀ s t : State, s.engine.phase = .idle → step s = .next t → t.engine ≠ Engine.reset →
    t.engine.res = s.engine.res ∧ t.engine.x = s.engine.x ∧ t.engine.y = s.engine.y ∧ t.engine.aux = s.engine.aux

/-- A BUSY engine stops being BUSY after at most one event more than the serial order holds, unless the run itself
stops first (R102, R107; the finite serial order is the model's choice, log entries 1 and 2). -/
def Obligations.BusyEngineCompletes : Prop :=
  ∀ (s : State) (l : Latch), s.Inv → s.engine.phase = .busy l →
    ∃ n, n ≤ s.agenda.length + 1 ∧
      (stepN n s = none ∨ ∃ t, stepN n s = some t ∧ t.engine.phase = .idle)

/-- An access and a completion at the same time, in both orders: a read of STATUS gives the BUSY or the DONE value; a
write to CMD is dropped with WERR or accepted; a soft reset gives the reset state in both; a W1C of DONE is without
effect before the completion and clears DONE after it (R184; the serial order as data is the model's choice, log
entry 1). -/
def Obligations.AccessAndCompletionInBothOrders : Prop :=
  ∀ (s : State) (l : Latch) (w : Word), s.Inv → s.resetAsserted = false → s.engine.phase = .busy l →
    (∀ (rest : List Event), s.agenda = .access (.read (Config.mexpBase + 0x04) .word) :: .completion :: rest →
      ∃ t, stepN 2 s = some t ∧ t.engine = s.engine.commit (latchResult l) ∧
        t.lastResponse = some (.okRead s.engine.statusWord)) ∧
    (∀ (rest : List Event), s.agenda = .completion :: .access (.read (Config.mexpBase + 0x04) .word) :: rest →
      ∃ t, stepN 2 s = some t ∧ t.engine = s.engine.commit (latchResult l) ∧
        t.lastResponse = some (.okRead (s.engine.commit (latchResult l)).statusWord)) ∧
    (∀ (rest : List Event), s.agenda = .access (.write (Config.mexpBase + 0x08) .word w) :: .completion :: rest →
      ∃ t, stepN 2 s = some t ∧ t.engine = { s.engine.commit (latchResult l) with werr := true }) ∧
    (∀ (rest : List Event), s.agenda = .completion :: .access (.write (Config.mexpBase + 0x08) .word w) :: rest →
      ∃ t, stepN 2 s = some t ∧ t.engine = (s.engine.commit (latchResult l)).accept w) ∧
    (∀ (rest : List Event), w.getLsbD 1 = true →
      (s.agenda = .access (.write (Config.mexpBase + 0x00) .word w) :: .completion :: rest ∨
        s.agenda = .completion :: .access (.write (Config.mexpBase + 0x00) .word w) :: rest) →
      ∃ t, stepN 2 s = some t ∧ t.engine = Engine.reset) ∧
    (∀ (rest : List Event),
      s.agenda = .access (.write (Config.mexpBase + 0x04) .word 0x00000002#32) :: .completion :: rest →
      ∃ t, stepN 2 s = some t ∧ t.engine.done = true) ∧
    (∀ (rest : List Event),
      s.agenda = .completion :: .access (.write (Config.mexpBase + 0x04) .word 0x00000002#32) :: rest →
      ∃ t, stepN 2 s = some t ∧ t.engine.done = false)

/-- The only stops of a step: an access to the window while the reset input is asserted, and a host program that has
run past its end. No completion stops the machine (93_implementation_defined.md: "No case of the engine is `stuck`";
the two stops are the model's choice, log entries 10 and 12, and a completion entry while IDLE or during reset as no
event is deduced, log entry 18). -/
def Obligations.StepStopsOnlyOutsideTheEngine : Prop :=
  (∀ (s : State) (r : Refusal), step s = .refused r → r = .accessDuringReset ∧ s.resetAsserted = true) ∧
  (∀ (s : State) (f : Fault), step s = .fault f →
    f = .hostRanOffProgram ∧ ∃ (k : Nat) (rest : List Event) (h : HostAgent),
      s.agenda = .host k :: rest ∧ s.hosts[k]? = some h ∧ h.prog.length ≤ h.pc) ∧
  (∀ s : State, (s.agenda = [] ∨ ∃ rest, s.agenda = .completion :: rest) → SafeStep s)

/-! ### The host notation (30_encoding.md R89, R90; 70_reset_and_hazards.md R225) -/

/-- The two bus operations of the host notation: W is one legal bus write of the operand's value, R one legal bus
read into the temporary (R89; a host as a list of operations with an index is the model's choice, log entry 13). -/
def Obligations.HostBusOperations : Prop :=
  ∀ (s : State) (k : Nat) (h : HostAgent) (r : WindowReg), s.resetAsserted = false → s.hosts[k]? = some h →
    (∀ v : HostVal, h.prog[h.pc]? = some (.write r v) →
      hostEvent k s = .next { s with
        engine := s.engine.writeReg r (h.value v), lastResponse := some .okWrite
        hosts := s.hosts.set k { h with pc := h.pc + 1 } }) ∧
    (∀ t : Fin 8, h.prog[h.pc]? = some (.read r t) →
      hostEvent k s = .next { s with
        lastResponse := some (.okRead (s.engine.readReg r))
        hosts := s.hosts.set k { h with pc := h.pc + 1, temps := h.temps.set t.val (s.engine.readReg r) t.isLt } })

/-- The host operations that make no access: they change the host's temporaries and place alone, and HALT changes
nothing (R89, R225; a halted host's next event changing nothing, and an event of its own for each of these operations,
are the model's choice, log entries 12 and 24). -/
def Obligations.HostLocalOperations : Prop :=
  ∀ (s : State) (k : Nat) (h : HostAgent) (t : Fin 8) (v : HostVal) (b : Fin 32) (target : Nat),
    s.hosts[k]? = some h →
    (h.prog[h.pc]? = some (.mov t v) → hostEvent k s = .next { s with
      hosts := s.hosts.set k { h with pc := h.pc + 1, temps := h.temps.set t.val (h.value v) t.isLt } }) ∧
    (h.prog[h.pc]? = some (.addi t v) → hostEvent k s = .next { s with
      hosts := s.hosts.set k { h with
        pc := h.pc + 1
        temps := h.temps.set t.val (BitVec.ofNat 32 ((h.temp t).toNat + (h.value v).toNat)) t.isLt } }) ∧
    (h.prog[h.pc]? = some (.beq t v target) → hostEvent k s = .next { s with
      hosts := s.hosts.set k { h with pc := if h.temp t = h.value v then target else h.pc + 1 } }) ∧
    (h.prog[h.pc]? = some (.bne t v target) → hostEvent k s = .next { s with
      hosts := s.hosts.set k { h with pc := if h.temp t = h.value v then h.pc + 1 else target } }) ∧
    (h.prog[h.pc]? = some (.bbc t b target) → hostEvent k s = .next { s with
      hosts := s.hosts.set k { h with
        pc := if (h.temp t).toNat / 2 ^ b.val % 2 = 0 then target else h.pc + 1 } }) ∧
    (h.prog[h.pc]? = some (.bbs t b target) → hostEvent k s = .next { s with
      hosts := s.hosts.set k { h with
        pc := if (h.temp t).toNat / 2 ^ b.val % 2 = 1 then target else h.pc + 1 } }) ∧
    (h.prog[h.pc]? = some (.jmp target) → hostEvent k s = .next { s with
      hosts := s.hosts.set k { h with pc := target } }) ∧
    (h.prog[h.pc]? = some .halt → hostEvent k s = .next s)

/-- The expansions of CALL, WAIT and CHECK, CALL MRTEST being refused for k above 255 (R90). -/
def Obligations.CallExpansions : Prop :=
  ∀ (a b c : HostVal) (k : Nat),
    assembleHost [.wait] = some [.read .status 7, .bbc 7 1 0] ∧
    assembleHost [.check] = some [.read .status 6] ∧
    assembleHost [.call .nop] = some [.write .cmd (.const 0x00000000#32), .read .status 7, .bbc 7 1 1] ∧
    assembleHost [.call (.modpow a b c)] = some [.write .opa a, .write .opb b, .write .opc c,
      .write .cmd (.const 0x00000001#32), .read .status 7, .bbc 7 1 4] ∧
    assembleHost [.call (.modmul a b c)] = some [.write .opa a, .write .opb b, .write .opc c,
      .write .cmd (.const 0x00000002#32), .read .status 7, .bbc 7 1 4] ∧
    assembleHost [.call (.egcd a b)] = some [.write .opa a, .write .opb b,
      .write .cmd (.const 0x00000003#32), .read .status 7, .bbc 7 1 3] ∧
    assembleHost [.call (.modinv a b)] = some [.write .opa a, .write .opb b,
      .write .cmd (.const 0x00000004#32), .read .status 7, .bbc 7 1 3] ∧
    assembleHost [.call (.decomp a)] = some [.write .opa a,
      .write .cmd (.const 0x00000005#32), .read .status 7, .bbc 7 1 2] ∧
    assembleHost [.call (.mrwit a b)] = some [.write .opa a, .write .opb b,
      .write .cmd (.const 0x00000006#32), .read .status 7, .bbc 7 1 3] ∧
    (k ≤ 255 → assembleHost [.call (.mrtest a k)] = some [.write .opa a,
      .write .cmd (.const (0x00000007#32 ||| BitVec.ofNat 32 (k * 2 ^ 8))), .read .status 7, .bbc 7 1 2]) ∧
    (255 < k → assembleHost [.call (.mrtest a k)] = none)

/-- WAIT leaves its loop exactly when the STATUS it read had DONE = 1: the two operations, run by host k with nothing
between them, end past the pseudo-instruction if DONE is set and at its start if not, and change nothing of the
engine (R90; the serial order as data, with an event for the branch, is the model's choice, log entries 1 and 24). -/
def Obligations.WaitEndsWhenDone : Prop :=
  ∀ (s : State) (k : Nat) (h : HostAgent) (rest : List Event), s.resetAsserted = false →
    s.hosts[k]? = some h → s.agenda = .host k :: .host k :: rest →
    h.prog[h.pc]? = some (.read .status 7) → h.prog[h.pc + 1]? = some (.bbc 7 1 h.pc) →
    ∃ (t : State) (h' : HostAgent), stepN 2 s = some t ∧ t.engine = s.engine ∧ t.hosts[k]? = some h' ∧
      h'.prog = h.prog ∧ h'.pc = (if s.engine.done then h.pc + 2 else h.pc) ∧
      h'.temp 7 = s.engine.statusWord
end

