-- ==== Sys2Proof/Laws/Arith.lean ====
section
/-! SUPPORT. One spec lemma for each function of Machine/Arith.lean: its value in plain mathematics. -/

namespace Sys2Proof.Machine

/-! ### Notation -/

theorem u32_toNat_cast (v : Nat) (h : v < 2 ^ 32) : (u32 (v : Int)).toNat = v := by
  simp [u32]; omega

theorem lt_two_pow_bitlen (v : Nat) : v < 2 ^ bitlen v := by
  unfold bitlen
  split
  · simp_all
  · exact Nat.lt_log2_self

theorem two_pow_bitlen_le (v : Nat) (h : v ≠ 0) : 2 ^ (bitlen v - 1) ≤ v := by
  simp only [bitlen, h, if_false, Nat.add_sub_cancel]
  exact Nat.log2_self_le h

theorem ctzUpTo_spec (bound v : Nat) (hv : 0 < v) (hb : v < 2 ^ bound) :
    ∃ d, d % 2 = 1 ∧ v = 2 ^ ctzUpTo bound v * d := by
  induction bound generalizing v with
  | zero => simp at hb; omega
  | succ bound ih =>
    unfold ctzUpTo
    split
    · exact ⟨v, ‹_›, by simp⟩
    · obtain ⟨d, hd, e⟩ := ih (v / 2) (by omega) (by rw [pow_succ] at hb; omega)
      refine ⟨d, hd, ?_⟩
      have h2 : v = 2 * (v / 2) := by omega
      rw [h2, pow_succ, Nat.mul_div_cancel_left _ (by norm_num)]
      conv_lhs => rw [e]
      ring

theorem ctz_spec (v : Nat) (hv : 0 < v) : ∃ d, d % 2 = 1 ∧ v = 2 ^ ctz v * d :=
  ctzUpTo_spec _ _ hv (lt_two_pow_bitlen v)

/-! ### Modular exponentiation -/

theorem mulmod_eq (x y m : Nat) : mulmod x y m = x * y % m := rfl

theorem powLoop_spec (m bound r b e : Nat) (he : e < 2 ^ bound) :
    powLoop m bound r b e % m = r * b ^ e % m := by
  induction bound generalizing r b e with
  | zero => simp at he; simp [he, powLoop]
  | succ bound ih =>
    unfold powLoop
    by_cases h0 : e = 0
    · simp [h0]
    · rw [if_neg h0, ih _ _ _ (by rw [Nat.shiftRight_eq_div_pow, pow_succ] at *; omega)]
      have hsh : e >>> 1 = e / 2 := by simp [Nat.shiftRight_eq_div_pow]
      have hb : (mulmod b b m) ^ (e / 2) ≡ b ^ (2 * (e / 2)) [MOD m] := by
        rw [mulmod_eq, pow_mul, sq]
        exact (Nat.mod_modEq _ _).pow _
      rw [hsh]
      by_cases ho : e % 2 = 1
      · have hr : mulmod r b m ≡ r * b [MOD m] := Nat.mod_modEq _ _
        have := hr.mul hb
        have e2 : r * b ^ e = r * b * b ^ (2 * (e / 2)) := by
          rw [mul_assoc, ← pow_succ']; congr 2; omega
        rw [if_pos ho, e2]; exact this
      · have e2 : r * b ^ e = r * b ^ (2 * (e / 2)) := by congr 2; omega
        rw [if_neg ho, e2]; exact (Nat.ModEq.refl r).mul hb

theorem powLoop_lt (m bound r b e : Nat) (hr : r < m) : powLoop m bound r b e < m := by
  induction bound generalizing r b e with
  | zero => exact hr
  | succ bound ih =>
    unfold powLoop
    split
    · exact hr
    · apply ih
      split
      · exact Nat.mod_lt _ (by omega)
      · exact hr

/-- MODPOW's loop with its special case computes the mathematical value (R122). -/
theorem powMod_eq (a e m : Nat) (hm : m ≠ 0) : powMod a e m = a ^ e % m := by
  unfold powMod
  split
  · subst m; simp [Nat.mod_one]
  · rw [← Nat.mod_eq_of_lt (powLoop_lt m (bitlen e) 1 (a % m) e (by omega)),
      powLoop_spec _ _ _ _ _ (lt_two_pow_bitlen e), one_mul, ← Nat.pow_mod]

/-! ### Extended Euclid -/

theorem egcdSpec_zero (a : Nat) : egcdSpec a 0 = (a, 1, 0) := by rw [egcdSpec]; simp

theorem egcdSpec_pos (a b : Nat) (hb : b ≠ 0) :
    egcdSpec a b = ((egcdSpec b (a % b)).1, (egcdSpec b (a % b)).2.2,
      (egcdSpec b (a % b)).2.1 - ((a / b : Nat) : Int) * (egcdSpec b (a % b)).2.2) := by
  rw [egcdSpec]; simp [hb]

theorem egcdLoop_eq (bound r0 r1 : Nat) (s0 s1 t0 t1 : Int) (h : r1 < bound) :
    egcdLoop bound r0 r1 s0 s1 t0 t1 =
      ((egcdSpec r0 r1).1, (egcdSpec r0 r1).2.1 * s0 + (egcdSpec r0 r1).2.2 * s1,
        (egcdSpec r0 r1).2.1 * t0 + (egcdSpec r0 r1).2.2 * t1) := by
  induction bound generalizing r0 r1 s0 s1 t0 t1 with
  | zero => omega
  | succ bound ih =>
    unfold egcdLoop
    by_cases h1 : r1 = 0
    · simp [h1, egcdSpec_zero]
    · have hm : r0 - r0 / r1 * r1 = r0 % r1 := by
        have := Nat.div_add_mod' r0 r1; omega
      have hlt : r0 % r1 < r1 := Nat.mod_lt _ (Nat.pos_of_ne_zero h1)
      rw [if_neg h1]
      simp only [hm]
      rw [ih _ _ _ _ _ _ (by omega), egcdSpec_pos r0 r1 h1]
      simp only [Prod.mk.injEq, true_and]
      constructor <;> ring

/-- The iterative form returns the recursive definition's triple. -/
theorem egcd_eq_spec (a b : Nat) : egcd a b = egcdSpec a b := by
  rw [egcd, egcdLoop_eq _ _ _ _ _ _ _ (Nat.lt_succ_self b)]; simp

theorem egcdSpec_gcd (a b : Nat) : (egcdSpec a b).1 = Nat.gcd a b := by
  induction b using Nat.strong_induction_on generalizing a with
  | _ b ih =>
    by_cases hb : b = 0
    · simp [hb, egcdSpec_zero]
    · rw [egcdSpec_pos a b hb, ih _ (Nat.mod_lt _ (Nat.pos_of_ne_zero hb)), Nat.gcd_comm a b,
        Nat.gcd_rec b a, Nat.gcd_comm]

theorem egcdSpec_bezout (a b : Nat) :
    (a : Int) * (egcdSpec a b).2.1 + b * (egcdSpec a b).2.2 = (egcdSpec a b).1 := by
  induction b using Nat.strong_induction_on generalizing a with
  | _ b ih =>
    by_cases hb : b = 0
    · simp [hb, egcdSpec_zero]
    · have := ih _ (Nat.mod_lt a (Nat.pos_of_ne_zero hb)) b
      rw [egcdSpec_pos a b hb]
      simp only at this ⊢
      rw [← this]
      have hd : ((a / b : Nat) : Int) * b + ((a % b : Nat) : Int) = a := by
        exact_mod_cast Nat.div_add_mod' a b
      rw [← hd]
      ring_nf

/-! ### Primality -/

theorem decomp_spec (n : Nat) (hn : 2 ≤ n) : n - 1 = 2 ^ (decomp n).2 * (decomp n).1 ∧ (decomp n).1 % 2 = 1 := by
  obtain ⟨d, hd, e⟩ := ctz_spec (n - 1) (by omega)
  have h1 : (decomp n).1 = d := by
    simp only [decomp, Nat.shiftRight_eq_div_pow]
    exact Nat.div_eq_of_eq_mul_right (by positivity) e
  rw [h1]
  exact ⟨e, hd⟩

theorem squareUpTo_iff (n k x : Nat) :
    squareUpTo n k x = true ↔ ∃ i, 1 ≤ i ∧ i ≤ k ∧ x ^ 2 ^ i % n = n - 1 := by
  induction k generalizing x with
  | zero => simp [squareUpTo]
  | succ k ih =>
    have hsq (i : Nat) : mulmod x x n ^ 2 ^ i % n = x ^ 2 ^ (i + 1) % n := by
      rw [mulmod_eq, ← Nat.pow_mod, ← sq, ← pow_mul, pow_succ' 2 i]
    unfold squareUpTo
    split
    · rename_i h
      simp only [true_iff]
      exact ⟨1, le_refl _, by omega, by simpa [sq, mulmod_eq] using h⟩
    · rename_i h
      rw [ih]
      constructor
      · rintro ⟨i, h1, h2, h3⟩
        exact ⟨i + 1, by omega, by omega, by rw [← hsq]; exact h3⟩
      · rintro ⟨i, h1, h2, h3⟩
        rcases Nat.lt_or_ge i 2 with hi | hi
        · have : i = 1 := by omega
          subst this
          exact absurd (by simpa [sq, mulmod_eq] using h3) h
        · refine ⟨i - 1, by omega, by omega, ?_⟩
          rw [hsq, Nat.sub_add_cancel (by omega)]
          exact h3

theorem mrRound_iff (n d r a : Nat) (hn : n ≠ 0) (hr : 1 ≤ r) :
    mrRound n d r a = true ↔ a ^ d % n = 1 ∨ ∃ i, i < r ∧ a ^ (2 ^ i * d) % n = n - 1 := by
  have hpow (i : Nat) : (a ^ d % n) ^ 2 ^ i % n = a ^ (2 ^ i * d) % n := by
    rw [← Nat.pow_mod, ← pow_mul, Nat.mul_comm]
  unfold mrRound
  simp only [powMod_eq a d n hn]
  split
  · rename_i h
    simp only [true_iff]
    rcases h with h | h
    · exact .inl h
    · exact .inr ⟨0, hr, by simpa using h⟩
  · rename_i h
    rw [squareUpTo_iff]
    constructor
    · rintro ⟨i, h1, h2, h3⟩
      exact .inr ⟨i, by omega, by rw [← hpow]; exact h3⟩
    · rintro (h1 | ⟨i, hi, h1⟩)
      · exact absurd (.inl h1) h
      · rcases Nat.eq_zero_or_pos i with h0 | h0
        · subst h0
          exact absurd (.inr (by simpa using h1)) h
        · exact ⟨i, h0, by omega, by rw [hpow]; exact h1⟩

theorem drawn_zero (next : Word → Word) (rng : Word) : drawn next rng 0 = rng := rfl

theorem drawn_succ (next : Word → Word) (rng : Word) (j : Nat) :
    drawn next rng (j + 1) = drawn next (next rng) j := rfl

/-- A selection either exhausts its tries, none accepted, or stops at the first accepted draw (R161). -/
theorem drawWitness_cases (next : Word → Word) (n tries : Nat) (rng : Word) :
    (drawWitness next n tries rng = (none, drawn next rng tries) ∧
      ∀ i, 1 ≤ i → i ≤ tries → witnessSpan n ≤ candidate n (drawn next rng i)) ∨
    ∃ j, j ≤ tries ∧ FirstAccepted next n rng j ∧
      drawWitness next n tries rng = (some (2 + candidate n (drawn next rng j)), drawn next rng j) := by
  induction tries generalizing rng with
  | zero => exact .inl ⟨rfl, fun i h1 h2 => by omega⟩
  | succ tries ih =>
    unfold drawWitness
    split
    · rename_i h
      exact .inr ⟨1, by omega, ⟨le_refl _, h, fun i h1 h2 => by omega⟩, rfl⟩
    · rename_i h
      rcases ih (next rng) with ⟨he, hall⟩ | ⟨j, hj, ⟨h1, h2, h3⟩, he⟩
      · refine .inl ⟨he, fun i h1 h2 => ?_⟩
        match i, h1 with
        | 1, _ => exact Nat.le_of_not_lt h
        | i + 2, _ => exact hall (i + 1) (by omega) (by omega)
      · refine .inr ⟨j + 1, by omega, ⟨by omega, h2, fun i h4 h5 => ?_⟩, he⟩
        match i, h4 with
        | 1, _ => exact Nat.le_of_not_lt h
        | i + 2, _ => exact h3 (i + 1) (by omega) (by omega)

/-- Every masked value below the span gives a witness in [2, n-2] (R162). -/
theorem witness_range (n c : Nat) (hn : 5 ≤ n) (h : c < witnessSpan n) : 2 ≤ 2 + c ∧ 2 + c ≤ n - 2 := by
  unfold witnessSpan at h; omega

end Sys2Proof.Machine
end

