-- ==== Sys2Proof/Laws/State.lean ====
section
/-! SUPPORT. One lemma for each field and each update of the engine and of the machine, so that no proof unfolds a
record update. -/

namespace Sys2Proof.Machine

/-! ### Accept -/

@[simp] theorem Engine.accept_irqEn (w : Word) (e : Engine) : (e.accept w).irqEn = e.irqEn := rfl
@[simp] theorem Engine.accept_done (w : Word) (e : Engine) : (e.accept w).done = false := rfl
@[simp] theorem Engine.accept_err (w : Word) (e : Engine) : (e.accept w).err = false := rfl
@[simp] theorem Engine.accept_werr (w : Word) (e : Engine) : (e.accept w).werr = e.werr := rfl
@[simp] theorem Engine.accept_errcode (w : Word) (e : Engine) : (e.accept w).errcode = 0x0#4 := rfl
@[simp] theorem Engine.accept_cmd (w : Word) (e : Engine) : (e.accept w).cmd = w := rfl
@[simp] theorem Engine.accept_opa (w : Word) (e : Engine) : (e.accept w).opa = e.opa := rfl
@[simp] theorem Engine.accept_opb (w : Word) (e : Engine) : (e.accept w).opb = e.opb := rfl
@[simp] theorem Engine.accept_opc (w : Word) (e : Engine) : (e.accept w).opc = e.opc := rfl
@[simp] theorem Engine.accept_res (w : Word) (e : Engine) : (e.accept w).res = e.res := rfl
@[simp] theorem Engine.accept_x (w : Word) (e : Engine) : (e.accept w).x = e.x := rfl
@[simp] theorem Engine.accept_y (w : Word) (e : Engine) : (e.accept w).y = e.y := rfl
@[simp] theorem Engine.accept_aux (w : Word) (e : Engine) : (e.accept w).aux = e.aux := rfl
@[simp] theorem Engine.accept_seed (w : Word) (e : Engine) : (e.accept w).seed = e.seed := rfl
@[simp] theorem Engine.accept_limit (w : Word) (e : Engine) : (e.accept w).limit = e.limit := rfl
@[simp] theorem Engine.accept_phase (w : Word) (e : Engine) : (e.accept w).phase = .busy (e.capture w) := rfl

/-! ### Success commit -/

@[simp] theorem Engine.commitSuccess_irqEn (ws : Writes) (g : Word) (e : Engine) : (e.commitSuccess ws g).irqEn = e.irqEn := rfl
@[simp] theorem Engine.commitSuccess_done (ws : Writes) (g : Word) (e : Engine) : (e.commitSuccess ws g).done = true := rfl
@[simp] theorem Engine.commitSuccess_err (ws : Writes) (g : Word) (e : Engine) : (e.commitSuccess ws g).err = false := rfl
@[simp] theorem Engine.commitSuccess_werr (ws : Writes) (g : Word) (e : Engine) : (e.commitSuccess ws g).werr = e.werr := rfl
@[simp] theorem Engine.commitSuccess_errcode (ws : Writes) (g : Word) (e : Engine) : (e.commitSuccess ws g).errcode = 0x0#4 := rfl
@[simp] theorem Engine.commitSuccess_cmd (ws : Writes) (g : Word) (e : Engine) : (e.commitSuccess ws g).cmd = e.cmd := rfl
@[simp] theorem Engine.commitSuccess_opa (ws : Writes) (g : Word) (e : Engine) : (e.commitSuccess ws g).opa = e.opa := rfl
@[simp] theorem Engine.commitSuccess_opb (ws : Writes) (g : Word) (e : Engine) : (e.commitSuccess ws g).opb = e.opb := rfl
@[simp] theorem Engine.commitSuccess_opc (ws : Writes) (g : Word) (e : Engine) : (e.commitSuccess ws g).opc = e.opc := rfl
@[simp] theorem Engine.commitSuccess_res (ws : Writes) (g : Word) (e : Engine) : (e.commitSuccess ws g).res = ws.res.getD e.res := rfl
@[simp] theorem Engine.commitSuccess_x (ws : Writes) (g : Word) (e : Engine) : (e.commitSuccess ws g).x = ws.x.getD e.x := rfl
@[simp] theorem Engine.commitSuccess_y (ws : Writes) (g : Word) (e : Engine) : (e.commitSuccess ws g).y = ws.y.getD e.y := rfl
@[simp] theorem Engine.commitSuccess_aux (ws : Writes) (g : Word) (e : Engine) : (e.commitSuccess ws g).aux = ws.aux.getD e.aux := rfl
@[simp] theorem Engine.commitSuccess_seed (ws : Writes) (g : Word) (e : Engine) : (e.commitSuccess ws g).seed = g := rfl
@[simp] theorem Engine.commitSuccess_limit (ws : Writes) (g : Word) (e : Engine) : (e.commitSuccess ws g).limit = e.limit := rfl
@[simp] theorem Engine.commitSuccess_phase (ws : Writes) (g : Word) (e : Engine) : (e.commitSuccess ws g).phase = .idle := rfl

/-! ### Error commit -/

@[simp] theorem Engine.commitError_irqEn (c : ErrorCode) (g : Word) (e : Engine) : (e.commitError c g).irqEn = e.irqEn := rfl
@[simp] theorem Engine.commitError_done (c : ErrorCode) (g : Word) (e : Engine) : (e.commitError c g).done = true := rfl
@[simp] theorem Engine.commitError_err (c : ErrorCode) (g : Word) (e : Engine) : (e.commitError c g).err = true := rfl
@[simp] theorem Engine.commitError_werr (c : ErrorCode) (g : Word) (e : Engine) : (e.commitError c g).werr = e.werr := rfl
@[simp] theorem Engine.commitError_errcode (c : ErrorCode) (g : Word) (e : Engine) : (e.commitError c g).errcode = c.code := rfl
@[simp] theorem Engine.commitError_cmd (c : ErrorCode) (g : Word) (e : Engine) : (e.commitError c g).cmd = e.cmd := rfl
@[simp] theorem Engine.commitError_opa (c : ErrorCode) (g : Word) (e : Engine) : (e.commitError c g).opa = e.opa := rfl
@[simp] theorem Engine.commitError_opb (c : ErrorCode) (g : Word) (e : Engine) : (e.commitError c g).opb = e.opb := rfl
@[simp] theorem Engine.commitError_opc (c : ErrorCode) (g : Word) (e : Engine) : (e.commitError c g).opc = e.opc := rfl
@[simp] theorem Engine.commitError_res (c : ErrorCode) (g : Word) (e : Engine) : (e.commitError c g).res = e.res := rfl
@[simp] theorem Engine.commitError_x (c : ErrorCode) (g : Word) (e : Engine) : (e.commitError c g).x = e.x := rfl
@[simp] theorem Engine.commitError_y (c : ErrorCode) (g : Word) (e : Engine) : (e.commitError c g).y = e.y := rfl
@[simp] theorem Engine.commitError_aux (c : ErrorCode) (g : Word) (e : Engine) : (e.commitError c g).aux = e.aux := rfl
@[simp] theorem Engine.commitError_seed (c : ErrorCode) (g : Word) (e : Engine) : (e.commitError c g).seed = g := rfl
@[simp] theorem Engine.commitError_limit (c : ErrorCode) (g : Word) (e : Engine) : (e.commitError c g).limit = e.limit := rfl
@[simp] theorem Engine.commitError_phase (c : ErrorCode) (g : Word) (e : Engine) : (e.commitError c g).phase = .idle := rfl

/-! ### Write to STATUS -/

@[simp] theorem Engine.writeStatus_irqEn (w : Word) (e : Engine) : (e.writeStatus w).irqEn = e.irqEn := rfl
@[simp] theorem Engine.writeStatus_done (w : Word) (e : Engine) : (e.writeStatus w).done = (e.done && !w.getLsbD 1) := rfl
@[simp] theorem Engine.writeStatus_err (w : Word) (e : Engine) : (e.writeStatus w).err = e.err := rfl
@[simp] theorem Engine.writeStatus_werr (w : Word) (e : Engine) : (e.writeStatus w).werr = (e.werr && !w.getLsbD 4) := rfl
@[simp] theorem Engine.writeStatus_errcode (w : Word) (e : Engine) : (e.writeStatus w).errcode = e.errcode := rfl
@[simp] theorem Engine.writeStatus_cmd (w : Word) (e : Engine) : (e.writeStatus w).cmd = e.cmd := rfl
@[simp] theorem Engine.writeStatus_opa (w : Word) (e : Engine) : (e.writeStatus w).opa = e.opa := rfl
@[simp] theorem Engine.writeStatus_opb (w : Word) (e : Engine) : (e.writeStatus w).opb = e.opb := rfl
@[simp] theorem Engine.writeStatus_opc (w : Word) (e : Engine) : (e.writeStatus w).opc = e.opc := rfl
@[simp] theorem Engine.writeStatus_res (w : Word) (e : Engine) : (e.writeStatus w).res = e.res := rfl
@[simp] theorem Engine.writeStatus_x (w : Word) (e : Engine) : (e.writeStatus w).x = e.x := rfl
@[simp] theorem Engine.writeStatus_y (w : Word) (e : Engine) : (e.writeStatus w).y = e.y := rfl
@[simp] theorem Engine.writeStatus_aux (w : Word) (e : Engine) : (e.writeStatus w).aux = e.aux := rfl
@[simp] theorem Engine.writeStatus_seed (w : Word) (e : Engine) : (e.writeStatus w).seed = e.seed := rfl
@[simp] theorem Engine.writeStatus_limit (w : Word) (e : Engine) : (e.writeStatus w).limit = e.limit := rfl
@[simp] theorem Engine.writeStatus_phase (w : Word) (e : Engine) : (e.writeStatus w).phase = e.phase := rfl

/-! ### Dropped write -/

@[simp] theorem Engine.markDropped_irqEn (e : Engine) : (e.markDropped).irqEn = e.irqEn := rfl
@[simp] theorem Engine.markDropped_done (e : Engine) : (e.markDropped).done = e.done := rfl
@[simp] theorem Engine.markDropped_err (e : Engine) : (e.markDropped).err = e.err := rfl
@[simp] theorem Engine.markDropped_werr (e : Engine) : (e.markDropped).werr = true := rfl
@[simp] theorem Engine.markDropped_errcode (e : Engine) : (e.markDropped).errcode = e.errcode := rfl
@[simp] theorem Engine.markDropped_cmd (e : Engine) : (e.markDropped).cmd = e.cmd := rfl
@[simp] theorem Engine.markDropped_opa (e : Engine) : (e.markDropped).opa = e.opa := rfl
@[simp] theorem Engine.markDropped_opb (e : Engine) : (e.markDropped).opb = e.opb := rfl
@[simp] theorem Engine.markDropped_opc (e : Engine) : (e.markDropped).opc = e.opc := rfl
@[simp] theorem Engine.markDropped_res (e : Engine) : (e.markDropped).res = e.res := rfl
@[simp] theorem Engine.markDropped_x (e : Engine) : (e.markDropped).x = e.x := rfl
@[simp] theorem Engine.markDropped_y (e : Engine) : (e.markDropped).y = e.y := rfl
@[simp] theorem Engine.markDropped_aux (e : Engine) : (e.markDropped).aux = e.aux := rfl
@[simp] theorem Engine.markDropped_seed (e : Engine) : (e.markDropped).seed = e.seed := rfl
@[simp] theorem Engine.markDropped_limit (e : Engine) : (e.markDropped).limit = e.limit := rfl
@[simp] theorem Engine.markDropped_phase (e : Engine) : (e.markDropped).phase = e.phase := rfl

/-! ### The latch taken by an accept -/

@[simp] theorem Engine.capture_cmd (w : Word) (e : Engine) : (e.capture w).cmd = w := rfl
@[simp] theorem Engine.capture_a (w : Word) (e : Engine) : (e.capture w).a = e.opa := rfl
@[simp] theorem Engine.capture_b (w : Word) (e : Engine) : (e.capture w).b = e.opb := rfl
@[simp] theorem Engine.capture_c (w : Word) (e : Engine) : (e.capture w).c = e.opc := rfl
@[simp] theorem Engine.capture_rng (w : Word) (e : Engine) : (e.capture w).rng = e.seed := rfl
@[simp] theorem Engine.capture_maxdraw (w : Word) (e : Engine) : (e.capture w).maxdraw = e.limit := rfl

/-! ### The two outcomes of a commit -/

@[simp] theorem Engine.commit_ok (ws : Writes) (g : Word) (e : Engine) :
    e.commit (.ok ws g) = e.commitSuccess ws g := rfl
@[simp] theorem Engine.commit_err (c : ErrorCode) (g : Word) (e : Engine) :
    e.commit (.err c g) = e.commitError c g := rfl

/-! ### The machine -/

@[simp] theorem State.assertReset_engine (s : State) : (s.assertReset).engine = Engine.reset := rfl
@[simp] theorem State.assertReset_resetAsserted (s : State) : (s.assertReset).resetAsserted = true := rfl
@[simp] theorem State.assertReset_agenda (s : State) : (s.assertReset).agenda = s.agenda := rfl
@[simp] theorem State.assertReset_hosts (s : State) : (s.assertReset).hosts = s.hosts := rfl
@[simp] theorem State.assertReset_lastResponse (s : State) : (s.assertReset).lastResponse = s.lastResponse := rfl

@[simp] theorem State.releaseReset_engine (s : State) : (s.releaseReset).engine = Engine.reset := rfl
@[simp] theorem State.releaseReset_resetAsserted (s : State) : (s.releaseReset).resetAsserted = false := rfl
@[simp] theorem State.releaseReset_agenda (s : State) : (s.releaseReset).agenda = s.agenda := rfl
@[simp] theorem State.releaseReset_hosts (s : State) : (s.releaseReset).hosts = s.hosts := rfl
@[simp] theorem State.releaseReset_lastResponse (s : State) : (s.releaseReset).lastResponse = s.lastResponse := rfl

@[simp] theorem State.updateHost_engine (k : Nat) (h : HostAgent) (s : State) : (s.updateHost k h).engine = s.engine := rfl
@[simp] theorem State.updateHost_resetAsserted (k : Nat) (h : HostAgent) (s : State) : (s.updateHost k h).resetAsserted = s.resetAsserted := rfl
@[simp] theorem State.updateHost_agenda (k : Nat) (h : HostAgent) (s : State) : (s.updateHost k h).agenda = s.agenda := rfl
@[simp] theorem State.updateHost_hosts (k : Nat) (h : HostAgent) (s : State) : (s.updateHost k h).hosts = s.hosts.set k h := rfl
@[simp] theorem State.updateHost_lastResponse (k : Nat) (h : HostAgent) (s : State) : (s.updateHost k h).lastResponse = s.lastResponse := rfl

@[simp] theorem State.withFetchWord_engine (s : State) (n w : Nat) : (s.withFetchWord n w).engine = s.engine.accept (tableWord n w) := rfl
@[simp] theorem State.withFetchWord_resetAsserted (s : State) (n w : Nat) : (s.withFetchWord n w).resetAsserted = false := rfl
@[simp] theorem State.withFetchWord_agenda (s : State) (n w : Nat) : (s.withFetchWord n w).agenda = .completion :: s.agenda := rfl
@[simp] theorem State.withFetchWord_hosts (s : State) (n w : Nat) : (s.withFetchWord n w).hosts = s.hosts := rfl
@[simp] theorem State.withFetchWord_lastResponse (s : State) (n w : Nat) : (s.withFetchWord n w).lastResponse = s.lastResponse := rfl

end Sys2Proof.Machine
end

