-- ==== Sys2Proof/Laws/Ops.lean ====
section
/-! SUPPORT. What each shared operation can do, said once, for the provers to cite instead of unfolding it. -/

namespace Sys2Proof.Machine

/-! ### Completion -/

theorem complete_busy (m : Latch → Result) (s : State) (l : Latch) (h : s.engine.phase = .busy l) :
    complete m s = .next { s with engine := s.engine.commit (m l) } := by
  simp [complete, h]

theorem complete_idle (m : Latch → Result) (s : State) (h : s.engine.phase = .idle) :
    complete m s = .fault .noCommandInFlight := by
  simp [complete, h]

/-- If a completion answers a next state, a command was in flight and its result was committed. -/
theorem complete_next (m : Latch → Result) (s t : State) (h : complete m s = .next t) :
    ∃ l, s.engine.phase = .busy l ∧ t = { s with engine := s.engine.commit (m l) } := by
  cases hp : s.engine.phase with
  | idle => simp [complete, hp] at h
  | busy l => exact ⟨l, rfl, by simpa [complete, hp] using h.symm⟩

/-- Every command's meaning is the completion of its result. -/
theorem exec_eq_complete (i : Instr) (s : State) : exec i s = complete (commandResult i) s := by
  cases i <;> rfl

/-- If a command completes, its result on the latch was committed and nothing else of the machine changed. -/
theorem exec_next (i : Instr) (s t : State) (h : exec i s = .next t) :
    ∃ l, s.engine.phase = .busy l ∧ t = { s with engine := s.engine.commit (commandResult i l) } :=
  complete_next _ _ _ (exec_eq_complete i s ▸ h)

/-- What a commit leaves alone. -/
theorem commit_frame (r : Result) (e : Engine) :
    (e.commit r).cmd = e.cmd ∧ (e.commit r).opa = e.opa ∧ (e.commit r).opb = e.opb ∧ (e.commit r).opc = e.opc ∧
      (e.commit r).irqEn = e.irqEn ∧ (e.commit r).werr = e.werr ∧ (e.commit r).limit = e.limit := by
  cases r <;> exact ⟨rfl, rfl, rfl, rfl, rfl, rfl, rfl⟩

@[simp] theorem commit_phase (r : Result) (e : Engine) : (e.commit r).phase = .idle := by cases r <;> rfl
@[simp] theorem commit_done (r : Result) (e : Engine) : (e.commit r).done = true := by cases r <;> rfl

theorem isBusy_iff (e : Engine) : e.isBusy = true ↔ ∃ l, e.phase = .busy l := by
  cases h : e.phase <;> simp [Engine.isBusy, h]

theorem not_isBusy_iff (e : Engine) : e.isBusy = false ↔ e.phase = .idle := by
  cases h : e.phase <;> simp [Engine.isBusy, h]

/-! ### The register window -/

@[simp] theorem slotAt_off (r : WindowReg) : slotAt r.off = r := by cases r <;> rfl

theorem off_lt (r : WindowReg) : r.off < 64 := by cases r <;> decide

theorem off_mod (r : WindowReg) : r.off % 4 = 0 := by cases r <;> decide

theorem windowOffset_eq_some (addr off : Nat) :
    windowOffset addr = some off ↔ addr = Config.mexpBase + off ∧ off < 64 := by
  unfold windowOffset Config.windowBytes
  split
  · simp only [Option.some.injEq]; omega
  · simp only [reduceCtorEq, false_iff]; omega

theorem windowOffset_eq_none (addr : Nat) :
    windowOffset addr = none ↔ addr < Config.mexpBase ∨ Config.mexpBase + 64 ≤ addr := by
  unfold windowOffset Config.windowBytes
  split
  · simp only [reduceCtorEq, false_iff]; omega
  · simp only [true_iff]; omega

theorem windowOffset_base (off : Nat) (h : off < 64) : windowOffset (Config.mexpBase + off) = some off :=
  (windowOffset_eq_some _ _).mpr ⟨rfl, h⟩

@[simp] theorem windowOffset_reg (r : WindowReg) : windowOffset (Config.mexpBase + r.off) = some r.off :=
  windowOffset_base _ (off_lt r)

@[simp] theorem legalAccess_reg (r : WindowReg) : legalAccess .word r.off = true := by
  simp [legalAccess, off_mod]

/-- A full-word read of a register of the window. -/
theorem busAccess_read (r : WindowReg) (s : State) (h : s.resetAsserted = false) :
    busAccess (.read (Config.mexpBase + r.off) .word) s =
      .next { s with lastResponse := some (.okRead (s.engine.readReg r)) } := by
  simp [busAccess, Access.addr, h, Engine.respond]

/-- A full-word write of a register of the window. -/
theorem busAccess_write (r : WindowReg) (w : Word) (s : State) (h : s.resetAsserted = false) :
    busAccess (.write (Config.mexpBase + r.off) .word w) s =
      .next { s with engine := s.engine.writeReg r w, lastResponse := some .okWrite } := by
  simp [busAccess, Access.addr, h, Engine.respond]

/-- What an access can do to the engine: nothing, or the write of one register. -/
theorem respond_engine (e : Engine) (a : Access) (off : Nat) :
    (e.respond a off).1 = e ∨
      ∃ addr w, a = .write addr .word w ∧ off % 4 = 0 ∧ (e.respond a off).1 = e.writeReg (slotAt off) w := by
  cases a with
  | read addr size => left; simp only [Engine.respond]; split <;> rfl
  | write addr size w =>
    simp only [Engine.respond]
    split
    · rename_i h
      simp only [legalAccess, Bool.and_eq_true, beq_iff_eq] at h
      exact .inr ⟨addr, w, by rw [h.1], h.2, rfl⟩
    · exact .inl rfl

/-- If an access gives a next state, only the engine and the last response can have changed, the engine by nothing
or by the write of one register, and then only with the reset input released. -/
theorem busAccess_next (a : Access) (s t : State) (h : busAccess a s = .next t) :
    t.resetAsserted = s.resetAsserted ∧ t.agenda = s.agenda ∧ t.hosts = s.hosts ∧
      (t.engine = s.engine ∨
        s.resetAsserted = false ∧ ∃ r w, t.engine = s.engine.writeReg r w) := by
  unfold busAccess at h
  split at h
  · cases h; exact ⟨rfl, rfl, rfl, .inl rfl⟩
  · rename_i off _
    split at h
    · cases h
    · rename_i hr
      cases h
      refine ⟨rfl, rfl, rfl, ?_⟩
      rcases respond_engine s.engine a off with he | ⟨_, w, _, _, he⟩
      · exact .inl he
      · exact .inr ⟨by simpa using hr, slotAt off, w, he⟩

/-- An access stops only while the reset input is asserted, as a refusal. -/
theorem busAccess_stops (a : Access) (s : State) :
    (∃ t, busAccess a s = .next t) ∨ s.resetAsserted = true ∧ busAccess a s = .refused .accessDuringReset := by
  unfold busAccess
  split
  · exact .inl ⟨_, rfl⟩
  · split
    · exact .inr ⟨‹_›, rfl⟩
    · exact .inl ⟨_, rfl⟩

/-! ### Hosts and the serial order -/

@[simp] theorem setTemp_pc (k : Fin 8) (w : Word) (h : HostAgent) : (h.setTemp k w).pc = h.pc + 1 := rfl
@[simp] theorem setTemp_prog (k : Fin 8) (w : Word) (h : HostAgent) : (h.setTemp k w).prog = h.prog := rfl
@[simp] theorem branch_temp (b : Bool) (n : Nat) (h : HostAgent) (k : Fin 8) : (h.branch b n).temp k = h.temp k := rfl
@[simp] theorem branch_prog (b : Bool) (n : Nat) (h : HostAgent) : (h.branch b n).prog = h.prog := rfl

/-- A temporary read back after it is set, and every other one. -/
theorem temp_setTemp (k j : Fin 8) (w : Word) (h : HostAgent) :
    (h.setTemp k w).temp j = if k = j then w else h.temp j := by
  simp only [HostAgent.temp, HostAgent.setTemp, Vector.getElem_set]
  by_cases hkj : k = j
  · simp [hkj]
  · simp [hkj, Fin.val_ne_of_ne hkj]

/-- If one host operation gives a next state, the engine changed by nothing or by the write of one register, and
the reset input and the serial order are as before. -/
theorem hostEvent_next (k : Nat) (s t : State) (h : hostEvent k s = .next t) :
    t.resetAsserted = s.resetAsserted ∧ t.agenda = s.agenda ∧
      (t.engine = s.engine ∨
        s.resetAsserted = false ∧ ∃ r w, t.engine = s.engine.writeReg r w) := by
  unfold hostEvent at h
  split at h
  · cases h; exact ⟨rfl, rfl, .inl rfl⟩
  · split at h
    · cases h
    · split at h
      · cases h; exact ⟨rfl, rfl, .inl rfl⟩
      · rename_i a _
        split at h
        · rename_i s' hs
          cases h
          obtain ⟨h1, h2, _, h4⟩ := busAccess_next a s s' hs
          exact ⟨h1, h2, h4⟩
        · cases h
        · cases h

/-- The engine's event is the commit of exec(L) on the latch, or nothing. -/
theorem engineEvent_eq (s : State) :
    engineEvent s =
      match s.resetAsserted, s.engine.phase with
      | false, .busy l => .next { s with engine := s.engine.commit (latchResult l) }
      | _, _ => .next s := by
  unfold engineEvent
  cases hr : s.resetAsserted with
  | true => simp
  | false =>
    cases hp : s.engine.phase with
    | idle => simp
    | busy l =>
      simp only [Bool.false_eq_true, if_false]
      cases hd : decodeWord l.cmd with
      | ok i => simp only; rw [exec_eq_complete, complete_busy _ _ _ hp]; simp [latchResult, hd, hr]
      | error d => simp only; rw [complete_busy _ _ _ hp]; simp [latchResult, hd, hr]

/-- What one event can do to the engine, said once: nothing, the write of one register by a bus access, the commit
of the command in flight, or reset. -/
theorem perform_engine (ev : Event) (s t : State) (h : perform ev s = .next t) :
    t.agenda = s.agenda ∧
    ((t.resetAsserted = s.resetAsserted ∧
      (t.engine = s.engine ∨
        s.resetAsserted = false ∧
          ((∃ r w, t.engine = s.engine.writeReg r w) ∨
            ∃ l, s.engine.phase = .busy l ∧ t.engine = s.engine.commit (latchResult l)))) ∨
      t.engine = Engine.reset) := by
  cases ev with
  | access a =>
    obtain ⟨h1, h2, _, h4⟩ := busAccess_next a s t h
    exact ⟨h2, .inl ⟨h1, h4.imp id fun ⟨a, b⟩ => ⟨a, .inl b⟩⟩⟩
  | host k =>
    obtain ⟨h1, h2, h4⟩ := hostEvent_next k s t h
    exact ⟨h2, .inl ⟨h1, h4.imp id fun ⟨a, b⟩ => ⟨a, .inl b⟩⟩⟩
  | completion =>
    simp only [perform, engineEvent_eq] at h
    split at h
    · rename_i l hr hp
      cases h
      exact ⟨rfl, .inl ⟨rfl, .inr ⟨hr, .inr ⟨l, hp, rfl⟩⟩⟩⟩
    · cases h; exact ⟨rfl, .inl ⟨rfl, .inl rfl⟩⟩
  | assertReset => cases h; exact ⟨rfl, .inr rfl⟩
  | releaseReset => cases h; exact ⟨rfl, .inr rfl⟩

/-- The same of one step. -/
theorem step_engine (s t : State) (h : step s = .next t) :
    (t.resetAsserted = s.resetAsserted ∧
      (t.engine = s.engine ∨
        s.resetAsserted = false ∧
          ((∃ r w, t.engine = s.engine.writeReg r w) ∨
            ∃ l, s.engine.phase = .busy l ∧ t.engine = s.engine.commit (latchResult l)))) ∨
      t.engine = Engine.reset := by
  unfold step nextEvent at h
  split at h
  · exact (perform_engine .completion s t h).2
  · exact (perform_engine _ _ _ h).2

/-- A step takes the head of the serial order off. -/
theorem step_agenda (s t : State) (h : step s = .next t) : t.agenda = s.agenda.tail := by
  unfold step nextEvent at h
  split at h
  · rename_i ha
    rw [(perform_engine .completion s t h).1, ha]; rfl
  · rename_i ha
    rw [(perform_engine _ _ _ h).1, ha]; rfl

end Sys2Proof.Machine
end

