-- ==== Sys2Proof/Laws/PerInstr.lean ====
section
/-! SUPPORT. Lemmas for all commands, one constructor at a time: the word the encoder writes for a well-formed
command passes the legality test (30_encoding.md R85). -/

namespace Sys2Proof.Laws.EncodesLegally

/-- The word of a well-formed command is legal. -/
def Statement (i : Instr) : Prop := i.wellFormed = true → legalCommand (encode i) = true

theorem nop : Statement .nop := fun _ => by decide
theorem modpow : Statement .modpow := fun _ => by decide
theorem modmul : Statement .modmul := fun _ => by decide
theorem egcd : Statement .egcd := fun _ => by decide
theorem modinv : Statement .modinv := fun _ => by decide
theorem decomp : Statement .decomp := fun _ => by decide
theorem mrwit : Statement .mrwit := fun _ => by decide

/-- The legality test on all 256 words of MRTEST. -/
theorem all_mrtest_legal : ∀ k : Fin 256, legalCommand (encode (.mrtest k.val)) = true := by decide +kernel

theorem mrtest (rounds : Nat) : Statement (.mrtest rounds) := fun h =>
  all_mrtest_legal ⟨rounds, by simp only [Instr.wellFormed, decide_eq_true_eq] at h; omega⟩

end Sys2Proof.Laws.EncodesLegally
end

