-- ==== Sys2Proof/Tests/Slice0.lean ====
section
/-! SUPPORT. The model's own tests: small vectors of the spec's file 95_test_vectors.md (their ids in the comments),
words written out from the encoding, the well-formedness smoke test, and for each statement with hypotheses a state
and operands that meet them. -/

open Sys2Proof Sys2Proof.Machine

namespace Sys2Proof.Tests

/-! ### Helpers -/

/-- A latch with the given word and operands, and the reset values of SEED and MAXDRAW. -/
def latch (w a b c : Word) : Latch := { cmd := w, a := a, b := b, c := c, rng := 1#32, maxdraw := 64#16 }

/-- A machine with a command in flight whose latch agrees with its registers. -/
def busyWith (l : Latch) (agenda : List Event) : State :=
  { State.reset with
    engine := { Engine.reset with
      cmd := l.cmd, opa := l.a, opb := l.b, opc := l.c, seed := l.rng, limit := l.maxdraw, phase := .busy l }
    agenda := agenda }

/-- An idle machine with a serial order to come. -/
def idleWith (agenda : List Event) : State := { State.reset with agenda := agenda }

/-- The engine after one step that runs the word w from the given operands. -/
def ran (w a b c : Word) : Option Engine :=
  match step (busyWith (latch w a b c) []) with
  | .next t => some t.engine
  | .fault _ => none
  | .refused _ => none

/-- The same with the generator state and the draw limit given. -/
def ranWith (w a : Word) (seed : Word) (limit : BitVec 16) : Option Engine :=
  match step (busyWith { cmd := w, a := a, b := 0#32, c := 0#32, rng := seed, maxdraw := limit } []) with
  | .next t => some t.engine
  | .fault _ => none
  | .refused _ => none

/-! ### Well-formedness and decoding -/

/-- The one check of WellFormed, at its boundary: MRTEST 255 has a word and MRTEST 256 has none (R88). -/
theorem test_wellFormed_refuses_256_rounds :
    (Instr.mrtest 255).wellFormed = true ∧ (Instr.mrtest 256).wellFormed = false := by decide

theorem test_assembler_refusals :
    assembleCommand (.command .MRTEST (some 256)) = none ∧ assembleCommand (.command .NOP (some 0)) = none ∧
      assembleCommand (.command .MRTEST (some 5)) = some 0x00000507#32 ∧
      assembleCommand (.word 0xDEADBEEF#32) = some 0xDEADBEEF#32 := by decide

/-- Words written out bit by bit from format CW (R81, R83): RSV1, ROUNDS, RSV0, OP. -/
theorem test_decode_nop : decodeWord 0b0000000000000000_00000000_0000_0000#32 = .ok .nop := by decide
theorem test_decode_modpow : decodeWord 0b0000000000000000_00000000_0000_0001#32 = .ok .modpow := by decide
theorem test_decode_modmul : decodeWord 0b0000000000000000_00000000_0000_0010#32 = .ok .modmul := by decide
theorem test_decode_egcd : decodeWord 0b0000000000000000_00000000_0000_0011#32 = .ok .egcd := by decide
theorem test_decode_modinv : decodeWord 0b0000000000000000_00000000_0000_0100#32 = .ok .modinv := by decide
theorem test_decode_decomp : decodeWord 0b0000000000000000_00000000_0000_0101#32 = .ok .decomp := by decide
theorem test_decode_mrwit : decodeWord 0b0000000000000000_00000000_0000_0110#32 = .ok .mrwit := by decide
theorem test_decode_mrtest : decodeWord 0b0000000000000000_00010100_0000_0111#32 = .ok (.mrtest 20) := by decide

/-- The lanes of MRTEST 5, lane 0 first (R51). -/
theorem test_decode_bytes : decodeBytes [0x07#8, 0x05#8, 0x00#8, 0x00#8] = .ok (.mrtest 5) := by decide

/-- The three classes of illegal words and a transfer that is not a word (R86, R87; T-IL1, T-IL3, T-IL4, T-IL6). -/
theorem test_decode_refusals :
    decodeWord 0x00000008#32 = .error .reservedOpcode ∧ decodeWord 0x00000010#32 = .error .reservedField ∧
      decodeWord 0x00000101#32 = .error .roundsField ∧ decodeWord 0x80000007#32 = .error .reservedField ∧
      decodeBytes [0x00#8] = .error .notOneWord := by decide

theorem test_table_word : decodeTableWord 32 0x507 = some (.mrtest 5) ∧ decodeTableWord 32 0x8 = none := by decide

/-! ### One step of each command -/

/-- T-NOP1. -/
theorem test_nop : (ran 0x0#32 5#32 6#32 7#32).map (fun e => (e.statusWord, e.res)) = some (0x2#32, 0#32) := by
  decide +kernel
/-- T-MP12: all 32 bits of the exponent are used. -/
theorem test_modpow : (ran 0x1#32 3#32 0xFFFFFFFF#32 0xFFFFFFFF#32).map (·.res) = some 0x8E38E38E#32 := by
  decide +kernel
/-- T-MP14. -/
theorem test_modpow_zero_modulus : (ran 0x1#32 7#32 0#32 0#32).map (·.statusWord) = some 0x206#32 := by decide +kernel
/-- T-MM2: the 64-bit product is not truncated. -/
theorem test_modmul : (ran 0x2#32 0xFFFFFFFF#32 0xFFFFFFFF#32 0xFFFFFFFB#32).map (·.res) = some 0x10#32 := by
  decide +kernel
/-- T-EG9: 45 iterations, a negative and a positive coefficient. -/
theorem test_egcd_fibonacci : (ran 0x3#32 2971215073#32 1836311903#32 0#32).map (fun e => (e.res, e.x, e.y)) =
    some (1#32, 0xD6315A23#32, 0x43A53F82#32) := by decide +kernel
/-- T-EG8: the largest coefficient. -/
theorem test_egcd_largest : (ran 0x3#32 2#32 0xFFFFFFFF#32 0#32).map (fun e => (e.x, e.y)) =
    some (0x80000001#32, 1#32) := by decide +kernel
/-- T-MI7. -/
theorem test_modinv : (ran 0x4#32 65537#32 0xFFFFFFFB#32 0#32).map (·.res) = some 0xC0003FFC#32 := by decide +kernel
/-- T-MI9. -/
theorem test_modinv_none : (ran 0x4#32 2#32 4#32 0#32).map (·.statusWord) = some 0x306#32 := by decide +kernel
/-- T-DC10: the largest r. -/
theorem test_decomp : (ran 0x5#32 0x80000001#32 0#32 0#32).map (fun e => (e.res, e.aux)) = some (1#32, 31#32) := by
  decide +kernel
/-- T-DC2. -/
theorem test_decomp_range : (ran 0x5#32 1#32 0#32 0#32).map (·.statusWord) = some 0x506#32 := by decide +kernel
/-- T-MW12: a Carmichael number; the squarings reach 1, which is no exit. -/
theorem test_mrwit_composite : (ran 0x6#32 561#32 2#32 0#32).map (fun e => (e.res, e.aux)) =
    some (0#32, 2#32) := by decide +kernel
/-- T-MW5: n - 1 is outside the witness range. -/
theorem test_mrwit_range : (ran 0x6#32 91#32 90#32 0#32).map (·.statusWord) = some 0x406#32 := by decide +kernel
/-- T-MR1. -/
theorem test_mrtest_prime : (ran 0x507#32 97#32 0#32 0#32).map (fun e => (e.res, e.aux, e.seed)) =
    some (1#32, 83#32, 0x8EF917D1#32) := by decide +kernel
/-- T-MR11: one rejected draw exhausts the one try. -/
theorem test_mrtest_exhausted : (ranWith 0x107#32 91#32 3#32 1#16).map (fun e => (e.statusWord, e.seed, e.aux)) =
    some (0x606#32, 0x000C6063#32, 0#32) := by decide +kernel
/-- T-IL4: no MODPOW happened. -/
theorem test_illegal_word : (ran 0x101#32 65#32 7#32 143#32).map (fun e => (e.statusWord, e.res, e.cmd)) =
    some (0x106#32, 0#32, 0x101#32) := by decide +kernel

/-- The host's entry: the word placed by `withFetchWord` runs in the very next step from reset. -/
theorem test_fetch_word : (match step (State.reset.withFetchWord 32 0x3) with
    | .next t => some (t.engine.statusWord, t.engine.x)
    | .fault _ => none
    | .refused _ => none) = some (0x2#32, 1#32) := by decide +kernel

/-! ### The window and reset -/

/-- T-BUS4, T-BUS11, T-BUS13 and T-BZ2, on the engine's registers. -/
theorem test_window_writes :
    (Engine.reset.writeReg .maxdraw 0x12345678#32).readReg .maxdraw = 0x00005678#32 ∧
      (Engine.reset.writeReg .ctrl 0xFFFFFFFF#32).readReg .ctrl = 0x00000000#32 ∧
      (Engine.reset.writeReg .status 0xFFFFFFFF#32).readReg .status = 0x00000000#32 ∧
      (((Engine.reset.writeReg .opa 97#32).writeReg .cmd 0x507#32).writeReg .cmd 0x5#32).readReg .status =
        0x00000011#32 := by decide +kernel

/-- T-BUS7 and T-BUS9: bus errors with data 0. -/
theorem test_bus_errors :
    Engine.reset.respond (.read 0 .half) 0x04 = (Engine.reset, .errorRead 0#32) ∧
      Engine.reset.respond (.read 0 .word) 0x06 = (Engine.reset, .errorRead 0#32) ∧
      Engine.reset.respond (.write 0 .byte 1#32) 0x08 = (Engine.reset, .errorWrite) := by decide +kernel

/-- T-RS1. -/
theorem test_reset_reads :
    (Engine.reset.readReg .seed, Engine.reset.readReg .maxdraw, Engine.reset.readReg .status,
      Engine.reset.readReg .id, Engine.reset.irq) = (1#32, 0x40#32, 0#32, 0x4D455850#32, false) := by decide +kernel

/-! ### Witnesses: the hypotheses of the statements can be met -/

theorem witness_DecodeInvertsEncode :
    (Instr.mrtest 255).wellFormed = true ∧ (Instr.mrtest 0).wellFormed = true ∧ Instr.nop.wellFormed = true := by
  decide

theorem witness_DecodedWordIsTheCommandsEncoding :
    decodeWord 0x0000FF07#32 = .ok (.mrtest 255) ∧ decodeWord 0x00000006#32 = .ok .mrwit := by decide

theorem witness_OneOpcodeRowSelectsEachLegalWord :
    legalCommand 0x00000006#32 = true ∧ legalCommand 0x0000FF07#32 = true ∧ legalCommand 0x00000008#32 = false ∧
      legalCommand 0x00010007#32 = false := by decide

theorem witness_StepRunsTheDecodedCommand :
    (∃ (s : State) (l : Latch) (i : Instr), s.resetAsserted = false ∧ s.engine.phase = .busy l ∧
      decodeWord l.cmd = .ok i ∧ s.agenda = []) ∧
    (∃ (s : State) (l : Latch) (i : Instr) (rest : List Event), s.resetAsserted = false ∧
      s.engine.phase = .busy l ∧ decodeWord l.cmd = .ok i ∧
      s.agenda = .completion :: rest) ∧
    (∃ (i : Instr), decodeTableWord 32 0x507 = some i) :=
  ⟨⟨busyWith (latch 0x1#32 2#32 3#32 5#32) [], _, .modpow, rfl, rfl, by decide, rfl⟩,
    ⟨busyWith (latch 0x1#32 2#32 3#32 5#32) [.completion], _, .modpow, [], rfl, rfl, by decide, rfl⟩,
    ⟨.mrtest 5, by decide⟩⟩

theorem witness_StepPerformsTheNextEvent :
    (∃ (s : State) (ev : Event) (rest : List Event), s.agenda = ev :: rest) ∧ (∃ s : State, s.agenda = [] ∧
      s.engine.phase = .idle) ∧
    (∃ (s : State) (rest : List Event), s.agenda = Event.completion :: rest ∧ s.engine.phase = .idle) :=
  ⟨⟨idleWith [.assertReset], _, _, rfl⟩, ⟨State.reset, rfl, rfl⟩, ⟨idleWith [.completion], [], rfl, rfl⟩⟩

theorem witness_NoCompletionWhileIdle : ∃ s : State, s.engine.phase = .idle := ⟨State.reset, rfl⟩

theorem witness_IllegalWordCompletesWithIllegalCmd :
    (∃ (s : State) (w : Word), s.resetAsserted = false ∧ s.engine.phase = .idle ∧ legalCommand w = false) ∧
    (∃ (s : State) (l : Latch) (rest : List Event), s.resetAsserted = false ∧ s.engine.phase = .busy l ∧
      legalCommand l.cmd = false ∧
      s.agenda = .completion :: rest) :=
  ⟨⟨State.reset, 0x8#32, rfl, rfl, by decide⟩,
    ⟨busyWith (latch 0x117#32 97#32 0#32 0#32) [.completion], _, [], rfl, rfl, by decide, rfl⟩⟩

theorem witness_AcceptLatchesTheOperands :
    (∃ (s : State) (w : Word), s.resetAsserted = false ∧ s.engine.phase = .idle ∧ legalCommand w = false) ∧
    (∃ (s t : State) (l l' : Latch), s.engine.phase = .busy l ∧ step s = .next t ∧ t.engine.phase = .busy l') :=
  ⟨⟨State.reset, 0x8#32, rfl, rfl, by decide⟩,
    ⟨busyWith (latch 0x1#32 7#32 3#32 5#32) [.host 0], _, _, _, rfl, rfl, rfl⟩⟩

theorem witness_BusyWritesAreDropped :
    (∃ (s : State) (l : Latch), s.resetAsserted = false ∧ s.engine.phase = .busy l) ∧
    (∃ (s t : State), step s = .next t ∧ s.engine.werr = true ∧ t.engine.werr = false) :=
  ⟨⟨busyWith (latch 0x507#32 97#32 0#32 0#32) [], _, rfl, rfl⟩,
    ⟨{ State.reset with engine := { Engine.reset with werr := true }, agenda := [.assertReset] }, _, rfl, rfl, rfl⟩⟩

/-- Bit 1 of a write to CTRL clear and set, and both phases' clauses of SEED and MAXDRAW. -/
theorem witness_WriteEffectsByOffset :
    ∃ (s : State) (w w' : Word), s.resetAsserted = false ∧ w.getLsbD 1 = false ∧ w'.getLsbD 1 = true ∧
      s.engine.phase = .idle :=
  ⟨State.reset, 1#32, 3#32, rfl, by decide, by decide, rfl⟩

theorem witness_ReadDataByOffset : ∃ s : State, s.resetAsserted = false := ⟨State.reset, rfl⟩

theorem witness_ReadsHaveNoSideEffects :
    ∃ (s t : State) (addr : Nat) (size : AccessSize), busAccess (.read addr size) s = .next t :=
  ⟨State.reset, _, _, _, busAccess_read .id State.reset rfl⟩

theorem witness_StatusFieldsAtTheirBits : (0 < 32) ∧ (8 ≤ 11) ∧ (31 < 32) := by decide

/-- A sub-word access at an aligned offset and a full-word access at a misaligned one, at the window's ends. -/
theorem witness_IllegalAccessChangesNothing :
    ∃ s : State, s.resetAsserted = false ∧ (0 < 64 ∧ AccessSize.half ≠ AccessSize.word) ∧ (63 < 64 ∧ 63 % 4 ≠ 0) :=
  ⟨State.reset, rfl, by decide, by decide⟩

/-- The first address above the window; below it there is one wherever MEXP_BASE is not 0. -/
theorem witness_NoResponseOutsideTheWindow :
    ∃ a : Access, a.addr < Config.mexpBase ∨ Config.mexpBase + 0x3F < a.addr :=
  ⟨.read (Config.mexpBase + 0x40) .word, .inr (by simp [Access.addr])⟩

theorem witness_OperandWriteLeavesOtherBytes :
    ∃ (s t : State) (r : WindowReg) (w : Word) (addr : Nat), s.resetAsserted = false ∧
      (r ∈ [.opa, .opb, .opc] ∨ r ∈ [.seed, .maxdraw] ∧ s.engine.phase = .idle) ∧
      busWrite r.off w s = .next t ∧ (addr < Config.mexpBase + r.off ∨ Config.mexpBase + r.off + 4 ≤ addr) :=
  ⟨State.reset, _, .seed, 7#32, Config.mexpBase + 0x2C, rfl, .inr ⟨by decide, rfl⟩,
    busAccess_write .seed 7#32 State.reset rfl, .inr (by simp [WindowReg.off])⟩

theorem witness_InterruptIsEnableAndDone :
    (2#32 : Word).getLsbD 1 = true ∧ Engine.reset.phase = .idle := by decide

theorem witness_HardwareResetFromAnyState :
    (∃ (s : State) (rest : List Event), s.agenda = Event.assertReset :: rest) ∧
      (∃ (s : State) (rest : List Event), s.agenda = Event.releaseReset :: rest) ∧
    (∃ (s : State) (rest : List Event), s.resetAsserted = true ∧ s.agenda = Event.completion :: rest) ∧
    (∃ (s : State) (a : Access) (off : Nat), s.resetAsserted = true ∧ windowOffset a.addr = some off) :=
  ⟨⟨idleWith [.assertReset], [], rfl⟩, ⟨idleWith [.releaseReset], [], rfl⟩,
    ⟨{ State.reset with resetAsserted := true, agenda := [.completion] }, [], rfl, rfl⟩,
    ⟨{ State.reset with resetAsserted := true }, .read (Config.mexpBase + 0x3F) .word, 0x3F, rfl,
      windowOffset_base 0x3F (by decide)⟩⟩

theorem witness_SoftResetInEitherPhase :
    (∃ s : State, s.resetAsserted = false ∧ (3#32 : Word).getLsbD 1 = true ∧ s.engine.isBusy = true) ∧
    (∃ (s t : State) (l : Latch) (a : Access), s.engine.phase = .busy l ∧ busAccess a s = .next t) :=
  ⟨⟨busyWith (latch 0x507#32 97#32 0#32 0#32) [], rfl, by decide, rfl⟩,
    ⟨busyWith (latch 0x507#32 97#32 0#32 0#32) [], _, _, _, rfl, busAccess_write .ctrl 1#32 _ rfl⟩⟩

/-- The invariant holds in a state with a command in flight. -/
theorem busyWith_inv (l : Latch) (agenda : List Event) : (busyWith l agenda).Inv where
  status := ⟨fun _ _ => ⟨rfl, rfl, rfl⟩, fun h => absurd h Bool.false_ne_true, fun _ => rfl⟩
  latch := fun l' h => by cases h; exact ⟨rfl, rfl, rfl⟩
  held := fun h => by cases h

theorem witness_StatusWriteClearsDoneAndWerrOnly :
    ∃ (s : State) (l : Latch), s.Inv ∧ s.resetAsserted = false ∧ s.engine.phase = .busy l :=
  ⟨busyWith (latch 0x507#32 97#32 0#32 0#32) [], _, busyWith_inv _ _, rfl, rfl⟩

theorem witness_NopCompletes :
    (∃ (s : State) (l : Latch), s.engine.phase = .busy l) ∧
      ∃ (w : Word) (s : State) (l : Latch), w.toNat % 16 = 0 ∧ w ≠ 0#32 ∧ s.resetAsserted = false ∧
        s.engine.phase = .busy l ∧ l.cmd = w :=
  ⟨⟨busyWith (latch 0x0#32 0#32 0#32 0#32) [], _, rfl⟩, 0x100#32,
    busyWith (latch 0x100#32 0#32 0#32 0#32) [], _, by decide, by decide, rfl, rfl, rfl⟩

/-- MODPOW and MODMUL: a modulus other than 0, 1 the smallest, and modulus 0. -/
theorem witness_ModpowIsThePowerModulo :
    (∃ (s : State) (l : Latch), s.engine.phase = .busy l ∧ l.c ≠ 0#32) ∧
      ∃ (s : State) (l : Latch), s.engine.phase = .busy l ∧ l.c = 0#32 :=
  ⟨⟨busyWith (latch 0x1#32 0#32 0#32 1#32) [], _, rfl, by decide⟩,
    ⟨busyWith (latch 0x1#32 0#32 0#32 0#32) [], _, rfl, rfl⟩⟩

theorem witness_ModmulIsTheProductModulo :
    (∃ (s : State) (l : Latch), s.engine.phase = .busy l ∧ l.c ≠ 0#32) ∧
      ∃ (s : State) (l : Latch), s.engine.phase = .busy l ∧ l.c = 0#32 :=
  ⟨⟨busyWith (latch 0x2#32 0xFFFFFFFF#32 0xFFFFFFFF#32 1#32) [], _, rfl, by decide⟩,
    ⟨busyWith (latch 0x2#32 5#32 5#32 0#32) [], _, rfl, rfl⟩⟩

/-- A command in flight runs to its completion. -/
theorem run_busy (i : Instr) (s : State) (l : Latch) (h : s.engine.phase = .busy l) :
    exec i s = .next { s with engine := s.engine.commit (commandResult i l) } :=
  (exec_eq_complete i s).trans (complete_busy _ s l h)

theorem witness_EgcdReturnsTheRecursiveTriple : ∃ (s : State) (l : Latch), s.engine.phase = .busy l :=
  ⟨busyWith (latch 0x3#32 240#32 46#32 0#32) [], _, rfl⟩

theorem witness_EgcdSatisfiesBezout : ∃ (s : State) (l : Latch), s.engine.phase = .busy l ∧ l.b = 0#32 :=
  ⟨busyWith (latch 0x3#32 7#32 0#32 0#32) [], _, rfl, rfl⟩

/-- The hypotheses of the corner cases: an EGCD that answers a next state, with operands (7, 0), (0, 7), (5, 5) and
(46, 240). -/
theorem witness_EgcdCornerCases :
    (∃ (s t : State) (l : Latch), s.engine.phase = .busy l ∧ exec .egcd s = .next t ∧ l.b = 0#32) ∧
    (∃ (s t : State) (l : Latch), s.engine.phase = .busy l ∧ exec .egcd s = .next t ∧ l.a = 0#32 ∧ l.b ≠ 0#32) ∧
    (∃ (s t : State) (l : Latch), s.engine.phase = .busy l ∧ exec .egcd s = .next t ∧ l.a = l.b ∧ l.b ≠ 0#32) ∧
    (∃ (s t : State) (l : Latch), s.engine.phase = .busy l ∧ exec .egcd s = .next t ∧ l.a.toNat < l.b.toNat) :=
  ⟨⟨busyWith (latch 0x3#32 7#32 0#32 0#32) [], _, _, rfl, run_busy _ _ _ rfl, rfl⟩,
    ⟨busyWith (latch 0x3#32 0#32 7#32 0#32) [], _, _, rfl, run_busy _ _ _ rfl, rfl, by decide⟩,
    ⟨busyWith (latch 0x3#32 5#32 5#32 0#32) [], _, _, rfl, run_busy _ _ _ rfl, rfl, by decide⟩,
    ⟨busyWith (latch 0x3#32 46#32 240#32 0#32) [], _, _, rfl, run_busy _ _ _ rfl, by decide⟩⟩

theorem witness_EgcdTakesAtMost47Iterations : (2 ^ 32 - 1 < 2 ^ 32) ∧ 47 ≤ 47 := by decide

/-- MODINV: coprime operands with modulus 1 (the smallest) and 120, operands with a common factor, modulus 0. -/
theorem witness_ModinvIsTheInverseModulo :
    (∃ (s : State) (l : Latch), s.engine.phase = .busy l ∧ l.b ≠ 0#32 ∧ Nat.gcd l.a.toNat l.b.toNat = 1) ∧
    (∃ (s : State) (l : Latch), s.engine.phase = .busy l ∧ l.b = 1#32 ∧ Nat.gcd l.a.toNat l.b.toNat = 1) ∧
    (∃ (s : State) (l : Latch), s.engine.phase = .busy l ∧ l.b ≠ 0#32 ∧ Nat.gcd l.a.toNat l.b.toNat ≠ 1) ∧
    (∃ (s : State) (l : Latch), s.engine.phase = .busy l ∧ l.b = 0#32) :=
  ⟨⟨busyWith (latch 0x4#32 7#32 120#32 0#32) [], _, rfl, by decide, by decide +kernel⟩,
    ⟨busyWith (latch 0x4#32 0#32 1#32 0#32) [], _, rfl, rfl, by decide +kernel⟩,
    ⟨busyWith (latch 0x4#32 2#32 4#32 0#32) [], _, rfl, by decide, by decide +kernel⟩,
    ⟨busyWith (latch 0x4#32 1#32 0#32 0#32) [], _, rfl, rfl⟩⟩

/-- DECOMP on both sides of 2. -/
theorem witness_DecompSplitsNMinusOne :
    (∃ (s : State) (l : Latch), s.engine.phase = .busy l ∧ 2 ≤ l.a.toNat) ∧
    (∃ (s : State) (l : Latch), s.engine.phase = .busy l ∧ l.a.toNat < 2) :=
  ⟨⟨busyWith (latch 0x5#32 2#32 0#32 0#32) [], _, rfl, by decide⟩,
    ⟨busyWith (latch 0x5#32 1#32 0#32 0#32) [], _, rfl, by decide⟩⟩

/-- The shortcuts' three clauses at 1, 3 and 4, for MRWIT and for MRTEST. -/
theorem witness_MrwitShortcuts :
    (∃ (s : State) (l : Latch), s.engine.phase = .busy l ∧ l.a.toNat ≤ 1) ∧
    (∃ (s : State) (l : Latch), s.engine.phase = .busy l ∧ (l.a.toNat = 2 ∨ l.a.toNat = 3)) ∧
    (∃ (s : State) (l : Latch), s.engine.phase = .busy l ∧ 2 < l.a.toNat ∧ l.a.toNat % 2 = 0) :=
  ⟨⟨busyWith (latch 0x6#32 1#32 0#32 0#32) [], _, rfl, by decide⟩,
    ⟨busyWith (latch 0x6#32 3#32 9#32 0#32) [], _, rfl, by decide⟩,
    ⟨busyWith (latch 0x6#32 4#32 3#32 0#32) [], _, rfl, by decide, by decide⟩⟩

theorem witness_MrtestShortcuts :
    (∃ (s : State) (l : Latch), s.engine.phase = .busy l ∧ l.a.toNat ≤ 1) ∧
    (∃ (s : State) (l : Latch), s.engine.phase = .busy l ∧ (l.a.toNat = 2 ∨ l.a.toNat = 3)) ∧
    (∃ (s : State) (l : Latch), s.engine.phase = .busy l ∧ 2 < l.a.toNat ∧ l.a.toNat % 2 = 0) :=
  ⟨⟨busyWith (latch 0x507#32 0#32 0#32 0#32) [], _, rfl, by decide⟩,
    ⟨busyWith (latch 0x507#32 2#32 0#32 0#32) [], _, rfl, by decide⟩,
    ⟨busyWith (latch 0x507#32 4#32 0#32 0#32) [], _, rfl, by decide, by decide⟩⟩

/-- MRWIT on n = 5: the witnesses 2 and 3 are the only legal ones, 1 and 4 the nearest outside. -/
theorem witness_MrwitRunsOneRound :
    (∃ (s : State) (l : Latch), s.engine.phase = .busy l ∧ 5 ≤ l.a.toNat ∧ l.a.toNat % 2 = 1 ∧ 2 ≤ l.b.toNat ∧
      l.b.toNat ≤ l.a.toNat - 2) ∧
    (∃ (s : State) (l : Latch), s.engine.phase = .busy l ∧ 5 ≤ l.a.toNat ∧ l.a.toNat % 2 = 1 ∧ l.b.toNat < 2) ∧
    (∃ (s : State) (l : Latch), s.engine.phase = .busy l ∧ 5 ≤ l.a.toNat ∧ l.a.toNat % 2 = 1 ∧
      l.a.toNat - 2 < l.b.toNat) :=
  ⟨⟨busyWith (latch 0x6#32 5#32 3#32 0#32) [], _, rfl, by decide, by decide, by decide, by decide⟩,
    ⟨busyWith (latch 0x6#32 5#32 1#32 0#32) [], _, rfl, by decide, by decide, by decide⟩,
    ⟨busyWith (latch 0x6#32 5#32 4#32 0#32) [], _, rfl, by decide, by decide, by decide⟩⟩

/-- The last clause's hypotheses at their smallest values. -/
theorem witness_GeneratorIsXorshift32 : ∃ n maxdraw : Nat, 5 ≤ n ∧ n % 2 = 1 ∧ 1 ≤ maxdraw := ⟨5, 1, by decide⟩

theorem witness_WitnessIsTheFirstAcceptedDraw : (5 ≤ 5 ∧ 5 % 2 = 1) ∧ (5 ≤ 0xFFFFFFFF ∧ 0xFFFFFFFF % 2 = 1) := by
  decide

/-- n = 5 = 2^1 + 3 with one try, and a selection that gives a witness. -/
theorem witness_WitnessSelectionBounds :
    5 = 2 ^ 1 + 3 ∧ 1 ≤ 1 ∧ drawWitness rngNext 5 1 1#32 = (some 3, 0x00042021#32) := by decide +kernel

theorem witness_MrtestRunsItsRounds :
    ∃ (s : State) (l : Latch), s.engine.phase = .busy l ∧ 5 ≤ l.a.toNat ∧ l.a.toNat % 2 = 1 :=
  ⟨busyWith (latch 0x507#32 97#32 0#32 0#32) [], _, rfl, by decide, by decide⟩

theorem witness_MrtestWithNoRounds :
    ∃ (s : State) (l : Latch), s.engine.phase = .busy l ∧ 5 ≤ l.a.toNat ∧ l.a.toNat % 2 = 1 ∧ s.Inv :=
  ⟨busyWith (latch 0x7#32 7#32 0#32 0#32) [], _, rfl, by decide, by decide, busyWith_inv _ _⟩

theorem witness_MrtestCompletesOnPowerOfTwoSpans :
    ∃ (s : State) (l : Latch), s.engine.phase = .busy l ∧ 1 ≤ 1 ∧ l.a.toNat = 2 ^ 1 + 3 ∧ 1 ≤ l.maxdraw.toNat :=
  ⟨busyWith (latch 0x107#32 5#32 0#32 0#32) [], _, rfl, by decide, by decide, by decide⟩

theorem witness_MrtestExhaustedAtOnce :
    ∃ (s : State) (l : Latch), s.engine.phase = .busy l ∧ 5 ≤ l.a.toNat ∧ l.a.toNat % 2 = 1 ∧ l.maxdraw = 0#16 ∧
      1 ≤ 1 :=
  ⟨busyWith { latch 0x307#32 7#32 0#32 0#32 with maxdraw := 0#16 } [], _, rfl, by decide, by decide, rfl, by decide⟩

theorem witness_PrimesPassEveryRound : 5 ≤ 5 ∧ Nat.Prime 5 ∧ 2 ≤ 3 ∧ 3 ≤ 5 - 2 := by norm_num

/-- MRTEST 1 on the prime 5 completes without error, and on the composite 9 with RES = 0 (T-MR17, T-MR13). -/
theorem witness_MrtestIsSoundForEveryGenerator :
    (∃ (s t : State) (l : Latch), s.engine.phase = .busy l ∧ complete (mrtest rngNext 1) s = .next t ∧
      t.engine.err = false ∧
      l.a.toNat = 5) ∧
    (∃ (s t : State) (l : Latch), s.engine.phase = .busy l ∧ complete (mrtest rngNext 1) s = .next t ∧
      t.engine.err = false ∧
      t.engine.res = 0#32) :=
  ⟨⟨busyWith (latch 0x107#32 5#32 0#32 0#32) [], _, _, rfl, complete_busy _ _ _ rfl, by decide +kernel, rfl⟩,
    ⟨busyWith { latch 0x107#32 9#32 0#32 0#32 with rng := 0x12345678#32 } [], _, _, rfl, complete_busy _ _ _ rfl,
      by decide +kernel, by decide +kernel⟩⟩

/-- The hypothesis of the frames: for every command a state of the invariant from which it completes, and for MODPOW
one that ends in an error and one that does not. -/
theorem witness_CompletionFrame (i : Instr) : ∃ (s t : State), s.Inv ∧ exec i s = .next t :=
  ⟨busyWith (latch 0x1#32 7#32 3#32 5#32) [], _, busyWith_inv _ _,
    (exec_eq_complete i _).trans (complete_busy _ _ _ rfl)⟩

theorem witness_ResultRegistersByCommand :
    (∃ (s t : State), exec .modpow s = .next t ∧ t.engine.err = true) ∧ (∃ (s t : State), exec .nop s = .next t) :=
  ⟨⟨busyWith (latch 0x1#32 7#32 0#32 0#32) [], _, run_busy _ _ _ rfl, by decide +kernel⟩,
    ⟨busyWith (latch 0x0#32 7#32 0#32 0#32) [], _, run_busy _ _ _ rfl⟩⟩

theorem witness_CompletionLeavesOtherBytes :
    ∃ (s t : State) (addr : Nat), s.Inv ∧ exec .egcd s = .next t ∧
      ∀ r ∈ writtenRegs .egcd, addr < Config.mexpBase + r.off ∨ Config.mexpBase + r.off + 4 ≤ addr :=
  ⟨busyWith (latch 0x3#32 7#32 0#32 0#32) [], _, Config.mexpBase + 0x24, busyWith_inv _ _, run_busy _ _ _ rfl,
    by intro r hr; right; fin_cases hr <;> simp [WindowReg.off]⟩

theorem witness_OutcomeDependsOnTheLatchOnly :
    ∃ (s : State), s.engine.phase = .busy (latch 0x1#32 2#32 3#32 5#32) :=
  ⟨busyWith (latch 0x1#32 2#32 3#32 5#32) [], rfl⟩

/-- DECOMP with the two operands it does not use changed. -/
theorem witness_UnusedOperandsDoNotMatter :
    ∃ (s : State) (l l' : Latch), s.engine.phase = .busy l ∧ l'.rng = l.rng ∧ l'.maxdraw = l.maxdraw ∧
      (Instr.decomp ≠ .nop → l'.a = l.a) ∧
      (Instr.decomp ∈ [.modpow, .modmul, .egcd, .modinv, .mrwit] → l'.b = l.b) ∧
      (Instr.decomp ∈ [.modpow, .modmul] → l'.c = l.c) ∧ l' ≠ l :=
  ⟨busyWith (latch 0x5#32 97#32 0#32 0#32) [], _, latch 0x5#32 97#32 8#32 9#32, rfl, rfl, rfl, fun _ => rfl,
    fun h => by simp at h, fun h => by simp at h, by decide⟩

theorem witness_StepKeepsTheInvariant : ∃ (s t : State), s.Inv ∧ step s = .next t :=
  ⟨busyWith (latch 0x1#32 7#32 3#32 5#32) [.assertReset], _, busyWith_inv _ _, rfl⟩

/-- All three outcomes' hypothesis: a step while a command is in flight. -/
theorem witness_CommandInFlightEndsByCompletionOrReset :
    ∃ (s t : State) (l : Latch), s.engine.phase = .busy l ∧ step s = .next t :=
  ⟨busyWith (latch 0x1#32 7#32 3#32 5#32) [.host 0], _, _, rfl, rfl⟩

theorem witness_ResultsChangeOnlyAtCompletionOrReset :
    ∃ (s t : State), s.engine.phase = .idle ∧ step s = .next t ∧ t.engine ≠ Engine.reset :=
  ⟨{ State.reset with engine := { Engine.reset with res := 5#32 } }, _, rfl, rfl, by decide⟩

theorem witness_BusyEngineCompletes : ∃ (s : State) (l : Latch), s.Inv ∧ s.engine.phase = .busy l :=
  ⟨busyWith (latch 0x1#32 7#32 3#32 5#32) [.host 0, .completion], _, busyWith_inv _ _, rfl⟩

theorem witness_AccessAndCompletionInBothOrders :
    ∃ (s : State) (l : Latch) (w : Word) (rest : List Event), s.Inv ∧ s.resetAsserted = false ∧
      s.engine.phase = .busy l ∧ w.getLsbD 1 = true ∧
      s.agenda = .completion :: .access (.write (Config.mexpBase + 0x00) .word w) :: rest :=
  ⟨busyWith (latch 0x507#32 97#32 0#32 0#32) [.completion, .access (.write (Config.mexpBase + 0x00) .word 2#32)], _,
    2#32, [], busyWith_inv _ _, rfl, rfl, by decide, rfl⟩

/-- A host whose program has run past its end stops the machine, and so does an access while reset is asserted. -/
theorem witness_StepStopsOnlyOutsideTheEngine :
    (∃ (s : State), step s = .fault .hostRanOffProgram) ∧ (∃ (s : State), step s = .refused .accessDuringReset) ∧
    (∃ s : State, s.agenda = []) :=
  ⟨⟨{ idleWith [.host 0] with hosts := [⟨[], 0, Vector.replicate 8 0#32⟩] }, rfl⟩,
    ⟨{ idleWith [.access (.read (Config.mexpBase + WindowReg.id.off) .word)] with resetAsserted := true }, by
      simp [step, nextEvent, idleWith, perform, busAccess, Access.addr]⟩,
    ⟨State.reset, rfl⟩⟩

theorem witness_HostBusOperations :
    ∃ (s : State) (k : Nat) (h : HostAgent), s.resetAsserted = false ∧ s.hosts[k]? = some h ∧
      h.prog[h.pc]? = some (.read .status 7) :=
  ⟨{ State.reset with hosts := [⟨[.read .status 7], 0, Vector.replicate 8 0#32⟩] }, 0, _, rfl, rfl, rfl⟩

theorem witness_HostLocalOperations :
    ∃ (s : State) (k : Nat) (h : HostAgent), s.hosts[k]? = some h ∧ h.prog[h.pc]? = some (.bbc 7 1 0) :=
  ⟨{ State.reset with hosts := [⟨[.bbc 7 1 0], 0, Vector.replicate 8 0#32⟩] }, 0, _, rfl, rfl⟩

theorem witness_CallExpansions : 255 ≤ 255 ∧ 255 < 256 := by decide

theorem witness_WaitEndsWhenDone :
    ∃ (s : State) (h : HostAgent) (rest : List Event), s.resetAsserted = false ∧ s.hosts[0]? = some h ∧
      s.agenda = .host 0 :: .host 0 :: rest ∧ h.prog[h.pc]? = some (.read .status 7) ∧
      h.prog[h.pc + 1]? = some (.bbc 7 1 h.pc) :=
  ⟨{ idleWith [.host 0, .host 0] with hosts := [⟨waitOps 0, 0, Vector.replicate 8 0#32⟩] }, _, [], rfl, rfl, rfl, rfl,
    rfl⟩

end Sys2Proof.Tests
end

section
/-! PROOFS. The family of 10_state.md: the invariant (R24, R60, R62, R210), STATUS and irq (R23, R41), reset (R45),
and what a completion leaves unchanged (R46). -/

namespace Sys2Proof.Machine

/-! ### The invariant is kept by every update of the engine -/

/-- The codes of R180 are 1 to 6. -/
theorem ErrorCode.code_bounds (c : ErrorCode) : 1 ≤ c.code.toNat ∧ c.code.toNat ≤ 6 := by
  cases c <;> decide

/-- With no command in flight there is no latch to agree with. -/
theorem Engine.latchOk_of_idle {e : Engine} (h : e.phase = .idle) : e.LatchOk :=
  fun l hl => by rw [h] at hl; cases hl

theorem Engine.reset_statusOk : Engine.reset.StatusOk where
  busy_clear _ h := by cases h
  err_code h := by cases h
  no_err_code _ := rfl

theorem Engine.commit_statusOk (r : Result) (e : Engine) : (e.commit r).StatusOk where
  busy_clear l h := by rw [commit_phase] at h; cases h
  err_code h := by
    cases r with
    | ok ws g => cases h
    | err c g => exact c.code_bounds
  no_err_code h := by
    cases r with
    | ok ws g => rfl
    | err c g => cases h

theorem Engine.accept_statusOk (w : Word) (e : Engine) : (e.accept w).StatusOk where
  busy_clear _ _ := ⟨rfl, rfl, rfl⟩
  err_code h := by cases h
  no_err_code _ := rfl

theorem Engine.accept_latchOk (w : Word) (e : Engine) : (e.accept w).LatchOk := by
  intro l h
  cases h
  exact ⟨rfl, rfl, rfl⟩

/-- What every write other than an accept or a soft reset keeps: PHASE with its latch, ERR and ERRCODE; a clear DONE;
and, while BUSY, the registers the latch was taken from and no write can reach (R56, R62). -/
structure Engine.KeepsCommand (e e' : Engine) : Prop where
  phase : e'.phase = e.phase
  err : e'.err = e.err
  errcode : e'.errcode = e.errcode
  done_clear : e.done = false → e'.done = false
  latched : e.isBusy = true → e'.cmd = e.cmd ∧ e'.seed = e.seed ∧ e'.limit = e.limit

theorem Engine.KeepsCommand.statusOk {e e' : Engine} (k : e.KeepsCommand e') (h : e.StatusOk) : e'.StatusOk where
  busy_clear l hl := by
    obtain ⟨hdone, herr, hcode⟩ := h.busy_clear l (k.phase ▸ hl)
    exact ⟨k.done_clear hdone, k.err.trans herr, k.errcode.trans hcode⟩
  err_code he := by
    rw [k.errcode]
    exact h.err_code (k.err ▸ he)
  no_err_code he := k.errcode.trans (h.no_err_code (k.err ▸ he))

theorem Engine.KeepsCommand.latchOk {e e' : Engine} (k : e.KeepsCommand e') (h : e.LatchOk) : e'.LatchOk := by
  intro l hl
  have hbusy : e.phase = .busy l := k.phase ▸ hl
  obtain ⟨hcmd, hseed, hlimit⟩ := k.latched ((isBusy_iff e).mpr ⟨l, hbusy⟩)
  rw [hcmd, hseed, hlimit]
  exact h l hbusy

/-- What a legal write can do to the engine: a soft reset, an accept while IDLE, or a write that keeps the command in
flight (R56, R60, R62, R212). -/
theorem Engine.writeReg_cases (e : Engine) (r : WindowReg) (w : Word) :
    e.writeReg r w = Engine.reset ∨ (e.phase = .idle ∧ e.writeReg r w = e.accept w) ∨
      e.KeepsCommand (e.writeReg r w) := by
  cases r with
  | ctrl =>
    simp only [Engine.writeReg, Engine.writeCtrl]
    split
    · exact .inl rfl
    · exact .inr (.inr ⟨rfl, rfl, rfl, id, fun _ => ⟨rfl, rfl, rfl⟩⟩)
  | status => exact .inr (.inr ⟨rfl, rfl, rfl, fun h => by simp [Engine.writeReg, h], fun _ => ⟨rfl, rfl, rfl⟩⟩)
  | cmd =>
    simp only [Engine.writeReg]
    split
    · exact .inr (.inr ⟨rfl, rfl, rfl, id, fun _ => ⟨rfl, rfl, rfl⟩⟩)
    · rename_i h
      exact .inr (.inl ⟨(not_isBusy_iff e).mp (by simpa using h), rfl⟩)
  | seed | maxdraw =>
    simp only [Engine.writeReg]
    split
    · exact .inr (.inr ⟨rfl, rfl, rfl, id, fun _ => ⟨rfl, rfl, rfl⟩⟩)
    · rename_i h
      exact .inr (.inr ⟨rfl, rfl, rfl, id, fun hb => absurd hb h⟩)
  | opa | opb | opc | res | x | y | aux | id | rsv34 | rsv38 | rsv3C =>
    exact .inr (.inr ⟨rfl, rfl, rfl, id, fun _ => ⟨rfl, rfl, rfl⟩⟩)

theorem Engine.writeReg_statusOk {e : Engine} (r : WindowReg) (w : Word) (h : e.StatusOk) :
    (e.writeReg r w).StatusOk := by
  rcases e.writeReg_cases r w with hreset | ⟨_, haccept⟩ | hkeeps
  · exact hreset ▸ Engine.reset_statusOk
  · exact haccept ▸ e.accept_statusOk w
  · exact hkeeps.statusOk h

theorem Engine.writeReg_latchOk {e : Engine} (r : WindowReg) (w : Word) (h : e.LatchOk) :
    (e.writeReg r w).LatchOk := by
  rcases e.writeReg_cases r w with hreset | ⟨_, haccept⟩ | hkeeps
  · exact hreset ▸ Engine.latchOk_of_idle rfl
  · exact haccept ▸ e.accept_latchOk w
  · exact hkeeps.latchOk h

/-- A machine whose engine is in the reset state satisfies the invariant, whatever the reset input's level. -/
theorem State.inv_of_reset {s : State} (h : s.engine = Engine.reset) : s.Inv where
  status := h ▸ Engine.reset_statusOk
  latch := h ▸ Engine.latchOk_of_idle rfl
  held _ := h

/-- With the reset input released the invariant is about the engine alone. -/
theorem State.inv_of_released {s : State} (hr : s.resetAsserted = false) (hs : s.engine.StatusOk)
    (hl : s.engine.LatchOk) : s.Inv where
  status := hs
  latch := hl
  held h := by rw [hr] at h; cases h

/-- Settles O50: every case of `step_engine` keeps the invariant. -/
theorem stepKeepsTheInvariant : Obligations.StepKeepsTheInvariant := by
  intro s t hinv hstep
  rcases step_engine s t hstep with
    ⟨hra, hsame | ⟨hreleased, ⟨r, w, hwrite⟩ | ⟨l, _, hcommit⟩⟩⟩ | hreset
  · exact ⟨hsame ▸ hinv.status, hsame ▸ hinv.latch, fun h => hsame.trans (hinv.held (hra ▸ h))⟩
  · exact State.inv_of_released (hra.trans hreleased) (hwrite ▸ Engine.writeReg_statusOk r w hinv.status)
      (hwrite ▸ Engine.writeReg_latchOk r w hinv.latch)
  · exact State.inv_of_released (hra.trans hreleased) (hcommit ▸ Engine.commit_statusOk _ _)
      (hcommit ▸ Engine.latchOk_of_idle (commit_phase _ _))
  · exact State.inv_of_reset hreset

/-- Settles O51: the engine is in its reset state. -/
theorem resetSatisfiesTheInvariant : Obligations.ResetSatisfiesTheInvariant :=
  State.inv_of_reset rfl

/-! ### STATUS, irq and the reset values -/

theorem getLsbD_bitWord (b : Bool) (k : Nat) : (bitWord b).getLsbD k = (decide (k = 0) && b) := by
  cases k <;> cases b <;> simp [bitWord]

/-- A one-bit field that stands at bit i of a register word. -/
theorem getLsbD_bitWord_shiftLeft (b : Bool) (i k : Nat) (hk : k < 32) :
    (bitWord b <<< i).getLsbD k = (decide (k = i) && b) := by
  rw [BitVec.getLsbD_shiftLeft, getLsbD_bitWord]
  by_cases h : k = i
  · simp [h, h ▸ hk]
  · by_cases hlt : k < i
    · simp [h, hlt]
    · simp [h, show k - i ≠ 0 by omega]

/-- The ERRCODE field at bits 11 to 8 of a register word. -/
theorem getLsbD_errcode_field (c : BitVec 4) (k : Nat) (hk : k < 32) :
    (c.setWidth 32 <<< 8).getLsbD k = (decide (8 ≤ k ∧ k ≤ 11) && c.getLsbD (k - 8)) := by
  rw [BitVec.getLsbD_shiftLeft, BitVec.getLsbD_setWidth]
  by_cases hlow : k < 8
  · simp [hlow]
  · by_cases hhigh : k ≤ 11
    · simp [hk, hhigh, hlow, show 8 ≤ k by omega, show k - 8 < 32 by omega]
    · simp [hhigh, BitVec.getLsbD_of_ge c (k - 8) (by omega)]

/-- Settles O15: the five fields stand at disjoint bits, so at each bit at most one of them shows. -/
theorem statusFieldsAtTheirBits : Obligations.StatusFieldsAtTheirBits := by
  intro e k hk
  have hbits : e.statusWord.getLsbD k =
      (decide (k = 0) && e.isBusy || decide (k = 1) && e.done || decide (k = 2) && e.err ||
        decide (k = 4) && e.werr || decide (8 ≤ k ∧ k ≤ 11) && e.errcode.getLsbD (k - 8)) := by
    simp only [Engine.statusWord, BitVec.getLsbD_or, getLsbD_bitWord, getLsbD_bitWord_shiftLeft _ _ _ hk,
      getLsbD_errcode_field _ _ hk]
  rw [hbits]
  by_cases hfield : 8 ≤ k
  · simp [hfield, show k ≠ 0 by omega, show k ≠ 1 by omega, show k ≠ 2 by omega, show k ≠ 4 by omega]
  · have hlow : k < 8 := by omega
    interval_cases k <;> simp

theorem irq_eq_true_iff (e : Engine) : e.irq = true ↔ e.irqEn = true ∧ e.done = true := by
  simp [Engine.irq]

/-- With DONE clear the interrupt output is low. -/
theorem irq_of_done_clear {e : Engine} (h : e.done = false) : e.irq = false := by
  simp [Engine.irq, h]

theorem commit_irq (r : Result) (e : Engine) : (e.commit r).irq = e.irqEn := by
  obtain ⟨-, -, -, -, hirqEn, -, -⟩ := commit_frame r e
  simp [Engine.irq, hirqEn]

/-- A write to CMD while IDLE is an accept (R60). -/
theorem writeReg_cmd_of_idle {e : Engine} (h : e.phase = .idle) (w : Word) : e.writeReg .cmd w = e.accept w := by
  simp [Engine.writeReg, (not_isBusy_iff e).mpr h]

/-- A write to CTRL without SRST sets IRQ_EN alone (R22). -/
theorem writeReg_ctrl_of_no_srst (e : Engine) {w : Word} (h : w.getLsbD 1 = false) :
    e.writeReg .ctrl w = { e with irqEn := w.getLsbD 0 } := by
  simp only [Engine.writeReg, Engine.writeCtrl, h, Bool.false_eq_true, if_false]

/-- Settles O19: each clause is IRQ_EN or DONE read after the update it names. -/
theorem interruptIsEnableAndDone : Obligations.InterruptIsEnableAndDone := by
  refine ⟨irq_eq_true_iff, rfl, fun e r => ⟨commit_irq r e, commit_done r e⟩, ?_, ?_, ?_, fun _ => rfl⟩
  · intro e w hw1c
    exact irq_of_done_clear (by simp [Engine.writeReg, hw1c])
  · intro e w hidle
    rw [writeReg_cmd_of_idle hidle]
    exact irq_of_done_clear (e.accept_done w)
  · intro e
    rw [writeReg_ctrl_of_no_srst e (by decide), writeReg_ctrl_of_no_srst e (by decide)]
    simp [Engine.irq]

/-- Settles O23: the write is `writeStatus`; while BUSY the invariant has DONE clear already. -/
theorem statusWriteClearsDoneAndWerrOnly : Obligations.StatusWriteClearsDoneAndWerrOnly := by
  have hwrite (s : State) (w : Word) (hr : s.resetAsserted = false) :
      busWrite 0x04 w s = .next (s.written (s.engine.writeStatus w)) := busAccess_write .status w s hr
  constructor
  · intro s w hr
    rw [hwrite s w hr, Engine.writeStatus]
    cases w.getLsbD 1 <;> cases w.getLsbD 4 <;> simp
  · intro s l hinv hr hbusy
    obtain ⟨hdone, -, -⟩ := hinv.status.busy_clear l hbusy
    rw [hwrite s _ hr]
    congr 2
    simp [Engine.writeStatus, ← hdone]

/-- Settles O20: the reset state by its fields; CTRL reads IRQ_EN as a one-bit word, so SRST reads 0. -/
theorem resetValues : Obligations.ResetValues := by
  refine ⟨rfl, rfl, rfl, rfl, rfl, rfl, rfl, rfl, rfl, rfl, rfl, rfl, rfl, rfl, rfl, rfl, rfl, rfl, rfl, ?_⟩
  intro e
  exact ⟨getLsbD_bitWord e.irqEn 1, rfl⟩

/-! ### What a completion writes -/

/-- The generator state a result commits to SEED. -/
def Result.rng : Result → Word
  | .ok _ g => g
  | .err _ g => g

/-- The register writes a result commits: none on an error. -/
def Result.writes : Result → Writes
  | .ok ws _ => ws
  | .err _ _ => {}

/-- The word the writes give a window register, if any. -/
def Writes.toReg (ws : Writes) : WindowReg → Option Word
  | .res => ws.res
  | .x => ws.x
  | .y => ws.y
  | .aux => ws.aux
  | _ => none

@[simp] theorem Result.rng_ok (ws : Writes) (g : Word) : (Result.ok ws g).rng = g := rfl
@[simp] theorem Result.rng_err (c : ErrorCode) (g : Word) : (Result.err c g).rng = g := rfl
@[simp] theorem Result.writes_ok (ws : Writes) (g : Word) : (Result.ok ws g).writes = ws := rfl
@[simp] theorem Result.writes_err (c : ErrorCode) (g : Word) : (Result.err c g).writes = {} := rfl

@[simp] theorem Writes.toReg_empty (r : WindowReg) : ({} : Writes).toReg r = none := by cases r <;> rfl

theorem commit_seed (r : Result) (e : Engine) : (e.commit r).seed = r.rng := by cases r <;> rfl

theorem Writes.toReg_res (a : Option Word) {r : WindowReg} (hres : r ≠ .res) :
    ({ res := a } : Writes).toReg r = none := by
  cases r with
  | res => exact absurd rfl hres
  | _ => rfl

theorem Writes.toReg_res_aux (a b : Option Word) {r : WindowReg} (hres : r ≠ .res) (haux : r ≠ .aux) :
    ({ res := a, aux := b } : Writes).toReg r = none := by
  cases r with
  | res => exact absurd rfl hres
  | aux => exact absurd rfl haux
  | _ => rfl

theorem Writes.toReg_res_x_y (a b c : Option Word) {r : WindowReg} (hres : r ≠ .res) (hx : r ≠ .x) (hy : r ≠ .y) :
    ({ res := a, x := b, y := c } : Writes).toReg r = none := by
  cases r with
  | res => exact absurd rfl hres
  | x => exact absurd rfl hx
  | y => exact absurd rfl hy
  | _ => rfl

/-- STATUS and SEED apart, a commit changes the registers it has a word for and no others (R103, R104). -/
theorem commit_readReg (res : Result) (e : Engine) {r : WindowReg} (hstatus : r ≠ .status) (hseed : r ≠ .seed) :
    (e.commit res).readReg r = (res.writes.toReg r).getD (e.readReg r) := by
  cases r with
  | status => exact absurd rfl hstatus
  | seed => exact absurd rfl hseed
  | _ => cases res <;> rfl

/-- Every command but MRTEST gives back the generator state it latched. -/
theorem commandResult_rng (i : Instr) (l : Latch) (h : ∀ k, i ≠ .mrtest k) : (commandResult i l).rng = l.rng := by
  cases i with
  | nop | egcd => rfl
  | modpow | modmul | decomp =>
    simp only [commandResult, modpow, modmul, decompCommand]
    split <;> rfl
  | modinv | mrwit =>
    simp only [commandResult, modinv, mrwit]
    split
    · rfl
    · split <;> rfl
  | mrtest k => exact absurd rfl (h k)

/-- The rounds of MRTEST write RES and AUX alone. -/
theorem mrRounds_writes (next : Word → Word) (n maxdraw k : Nat) (rng : Word) (last : Nat) {r : WindowReg}
    (hres : r ≠ .res) (haux : r ≠ .aux) : (mrRounds next n maxdraw k rng last).writes.toReg r = none := by
  induction k generalizing rng last with
  | zero => exact Writes.toReg_res_aux _ _ hres haux
  | succ k ih =>
    simp only [mrRounds]
    split
    · exact Writes.toReg_empty r
    · split
      · exact ih _ _
      · exact Writes.toReg_res_aux _ _ hres haux

/-- A command's result has words for the registers the spec lists for it alone (R46). -/
theorem commandResult_writes (i : Instr) (l : Latch) {r : WindowReg} (h : r ∉ resultRegs i) :
    (commandResult i l).writes.toReg r = none := by
  cases i with
  | nop => exact Writes.toReg_empty r
  | modpow | modmul =>
    have hres : r ≠ .res := by simpa [resultRegs] using h
    simp only [commandResult, modpow, modmul]
    split
    · exact Writes.toReg_empty r
    · exact Writes.toReg_res _ hres
  | egcd =>
    obtain ⟨hres, hx, hy⟩ : r ≠ .res ∧ r ≠ .x ∧ r ≠ .y := by simpa [resultRegs] using h
    exact Writes.toReg_res_x_y _ _ _ hres hx hy
  | modinv =>
    have hres : r ≠ .res := by simpa [resultRegs] using h
    simp only [commandResult, modinv]
    split
    · exact Writes.toReg_empty r
    · split
      · exact Writes.toReg_empty r
      · exact Writes.toReg_res _ hres
  | decomp =>
    obtain ⟨hres, haux⟩ : r ≠ .res ∧ r ≠ .aux := by simpa [resultRegs] using h
    simp only [commandResult, decompCommand]
    split
    · exact Writes.toReg_empty r
    · exact Writes.toReg_res_aux _ _ hres haux
  | mrwit =>
    obtain ⟨hres, haux⟩ : r ≠ .res ∧ r ≠ .aux := by simpa [resultRegs] using h
    simp only [commandResult, mrwit]
    split
    · exact Writes.toReg_res_aux _ _ hres haux
    · split
      · exact Writes.toReg_empty r
      · exact Writes.toReg_res_aux _ _ hres haux
  | mrtest k =>
    obtain ⟨hres, haux⟩ : r ≠ .res ∧ r ≠ .aux := by simpa [resultRegs] using h
    simp only [commandResult, mrtest]
    split
    · exact Writes.toReg_res_aux _ _ hres haux
    · exact mrRounds_writes _ _ _ _ _ _ hres haux

/-- A completion leaves every register as it was but STATUS, SEED and the command's result registers. -/
theorem exec_readReg {i : Instr} {s t : State} (h : exec i s = .next t) {r : WindowReg} (hr : r ∉ resultRegs i)
    (hstatus : r ≠ .status) (hseed : r ≠ .seed) : t.engine.readReg r = s.engine.readReg r := by
  obtain ⟨l, -, rfl⟩ := exec_next i s t h
  rw [commit_readReg _ _ hstatus hseed, commandResult_writes i l hr, Option.getD_none]

/-- In the invariant's states the commit of any command but MRTEST puts back the SEED there was. -/
theorem exec_seed {i : Instr} {s t : State} (hinv : s.Inv) (h : exec i s = .next t) (hi : ∀ k, i ≠ .mrtest k) :
    t.engine.seed = s.engine.seed := by
  obtain ⟨l, hbusy, rfl⟩ := exec_next i s t h
  obtain ⟨-, hrng, -⟩ := hinv.latch l hbusy
  rw [commit_seed, commandResult_rng i l hi, hrng]

/-- Settles O45: a completion is one commit, and only its SEED depends on the command. -/
theorem completionFrame : Obligations.CompletionFrame := by
  intro i s t h
  have hseed (hinv : s.Inv) := exec_seed hinv h
  obtain ⟨l, -, rfl⟩ := exec_next i s t h
  obtain ⟨hcmd, hopa, hopb, hopc, hirqEn, hwerr, hlimit⟩ := commit_frame (commandResult i l) s.engine
  exact ⟨rfl, rfl, rfl, rfl, hcmd, hopa, hopb, hopc, hirqEn, hwerr, hlimit, commit_done _ _, commit_phase _ _,
    (Engine.commit_statusOk _ _).no_err_code, hseed⟩

/-- An error commit writes no result register (R104). -/
theorem commit_results_of_err {r : Result} {e : Engine} (h : (e.commit r).err = true) :
    (e.commit r).res = e.res ∧ (e.commit r).x = e.x ∧ (e.commit r).y = e.y ∧ (e.commit r).aux = e.aux := by
  cases r with
  | ok ws g => cases h
  | err c g => exact ⟨rfl, rfl, rfl, rfl⟩

theorem x_y_notMem_resultRegs {i : Instr} (h : i ≠ .egcd) : .x ∉ resultRegs i ∧ .y ∉ resultRegs i := by
  cases i with
  | egcd => exact absurd rfl h
  | _ => simp [resultRegs]

theorem aux_notMem_resultRegs {i : Instr} (h : i ∈ [.nop, .modpow, .modmul, .egcd, .modinv]) :
    .aux ∉ resultRegs i := by
  cases i with
  | nop | modpow | modmul | egcd | modinv => simp [resultRegs]
  | decomp | mrwit | mrtest k => simp at h

/-- Settles O46: each register the statement names is none of the command's result registers. -/
theorem resultRegistersByCommand : Obligations.ResultRegistersByCommand := by
  intro i s t h
  refine ⟨fun herr => ?_, fun hnop => ?_, fun hegcd => ?_, fun hmem => ?_⟩
  · obtain ⟨l, -, rfl⟩ := exec_next i s t h
    exact commit_results_of_err herr
  · subst hnop
    exact exec_readReg h (r := .res) (by simp [resultRegs]) (by decide) (by decide)
  · obtain ⟨hx, hy⟩ := x_y_notMem_resultRegs hegcd
    exact ⟨exec_readReg h hx (by decide) (by decide), exec_readReg h hy (by decide) (by decide)⟩
  · exact exec_readReg h (aux_notMem_resultRegs hmem) (by decide) (by decide)

/-- In the invariant's states a completion leaves every register outside `writtenRegs` as it was. -/
theorem exec_readReg_of_inv {i : Instr} {s t : State} (hinv : s.Inv) (h : exec i s = .next t) {r : WindowReg}
    (hr : r ∉ writtenRegs i) : t.engine.readReg r = s.engine.readReg r := by
  obtain ⟨hstatus, hresult⟩ : r ≠ .status ∧ r ∉ resultRegs i := by
    cases i <;> simp_all [writtenRegs]
  by_cases hseed : r = .seed
  · subst hseed
    refine exec_seed hinv h fun k hk => ?_
    subst hk
    simp [writtenRegs] at hr
  · exact exec_readReg h hresult hstatus hseed

/-- The slot of an offset starts at the multiple of 4 below it (R21). -/
theorem off_slotAt {off : Nat} (h : off < 64) : (slotAt off).off = 4 * (off / 4) := by
  obtain ⟨q, hq⟩ : ∃ q, off / 4 = q := ⟨_, rfl⟩
  have hlt : q < 16 := by omega
  simp only [slotAt, hq]
  interval_cases q <;> rfl

/-- A byte of the window depends on the one register whose four bytes it is among (R51). -/
theorem byteAt_congr {e e' : Engine} {addr : Nat}
    (h : ∀ r : WindowReg, Config.mexpBase + r.off ≤ addr → addr < Config.mexpBase + r.off + 4 →
      e'.readReg r = e.readReg r) : e'.byteAt addr = e.byteAt addr := by
  unfold Engine.byteAt
  cases ho : windowOffset addr with
  | none => rfl
  | some off =>
    obtain ⟨haddr, hlt⟩ := (windowOffset_eq_some addr off).mp ho
    have hslot := off_slotAt hlt
    simp only [h (slotAt off) (by omega) (by omega)]

/-- Settles O47: a byte outside the written registers lies in the slot of a register the completion leaves alone. -/
theorem completionLeavesOtherBytes : Obligations.CompletionLeavesOtherBytes := by
  intro i s t addr hinv h houtside
  refine byteAt_congr fun r hlow hhigh => exec_readReg_of_inv hinv h fun hmem => ?_
  rcases houtside r hmem with hbelow | habove <;> omega

/-! ### What changes the result registers -/

/-- Among the legal writes only a soft reset can change a result register (R31, R56). -/
theorem Engine.writeReg_results (e : Engine) (r : WindowReg) (w : Word) :
    e.writeReg r w = Engine.reset ∨
      ((e.writeReg r w).res = e.res ∧ (e.writeReg r w).x = e.x ∧ (e.writeReg r w).y = e.y ∧
        (e.writeReg r w).aux = e.aux) := by
  cases r with
  | ctrl =>
    simp only [Engine.writeReg, Engine.writeCtrl]
    split
    · exact .inl rfl
    · exact .inr ⟨rfl, rfl, rfl, rfl⟩
  | cmd | seed | maxdraw =>
    simp only [Engine.writeReg]
    split <;> exact .inr ⟨rfl, rfl, rfl, rfl⟩
  | status | opa | opb | opc | res | x | y | aux | id | rsv34 | rsv38 | rsv3C => exact .inr ⟨rfl, rfl, rfl, rfl⟩

/-- Settles O53: from IDLE a step commits nothing, so it is a register write, a reset, or no change. -/
theorem resultsChangeOnlyAtCompletionOrReset : Obligations.ResultsChangeOnlyAtCompletionOrReset := by
  intro s t hidle hstep hnot_reset
  rcases step_engine s t hstep with ⟨-, hsame | ⟨-, ⟨r, w, hwrite⟩ | ⟨l, hbusy, -⟩⟩⟩ | hreset
  · exact hsame ▸ ⟨rfl, rfl, rfl, rfl⟩
  · rcases s.engine.writeReg_results r w with hreset | hkept
    · exact absurd (hwrite.trans hreset) hnot_reset
    · exact hwrite ▸ hkept
  · rw [hidle] at hbusy
    cases hbusy
  · exact absurd hreset hnot_reset

end Sys2Proof.Machine
end

section
/-! PROOFS. The family of 20_memory.md: the serial order (R61), the window and its accesses (R50 to R56), accept (R60)
and the writes dropped while BUSY (R62). -/

namespace Sys2Proof.Machine

/-! ### The next event of the serial order -/

theorem step_of_cons {s : State} {ev : Event} {rest : List Event} (h : s.agenda = ev :: rest) :
    step s = perform ev { s with agenda := rest } := by
  simp only [step, nextEvent, h]

theorem step_of_nil {s : State} (h : s.agenda = []) : step s = engineEvent s := by
  simp only [step, nextEvent, h]

/-- An IDLE engine has no step of its own (R100). -/
theorem engineEvent_of_idle {s : State} (h : s.engine.phase = .idle) : engineEvent s = .next s := by
  rw [engineEvent_eq, h]
  cases s.resetAsserted <;> rfl

theorem engineEvent_of_busy {s : State} {l : Latch} (hr : s.resetAsserted = false) (h : s.engine.phase = .busy l) :
    engineEvent s = .next { s with engine := s.engine.commit (latchResult l) } := by
  simp only [engineEvent_eq, hr, h]

/-- Settles O7: `step` by the two shapes of the serial order, and the engine's event while IDLE. -/
theorem stepPerformsTheNextEvent : Obligations.StepPerformsTheNextEvent := by
  refine ⟨fun _ _ _ => step_of_cons, ?_, ?_⟩
  · intro s hnil hidle
    rw [step_of_nil hnil, engineEvent_of_idle hidle]
  · intro s rest hcons hidle
    rw [step_of_cons hcons]
    exact engineEvent_of_idle hidle

/-! ### Accesses by where they fall and whether they are legal -/

/-- If an access gives a next state, it fell outside the window without a response, or the engine responded to it with
the reset input released (R50, R210). -/
theorem busAccess_next_cases {a : Access} {s t : State} (h : busAccess a s = .next t) :
    t = { s with lastResponse := none } ∨
      ∃ off, t = { s with
        engine := (s.engine.respond a off).1, lastResponse := some (s.engine.respond a off).2 } := by
  unfold busAccess at h
  split at h
  · cases h; exact .inl rfl
  · rename_i off _
    split at h
    · cases h
    · cases h; exact .inr ⟨off, rfl⟩

/-- Outside the window there is no response (R50). -/
theorem busAccess_outside {a : Access} (s : State) (h : windowOffset a.addr = none) :
    busAccess a s = .next { s with lastResponse := none } := by
  simp only [busAccess, h]

/-- Inside the window, with the reset input released, the engine responds. -/
theorem busAccess_inside {a : Access} {s : State} {off : Nat} (hr : s.resetAsserted = false)
    (h : windowOffset a.addr = some off) :
    busAccess a s = .next { s with
      engine := (s.engine.respond a off).1, lastResponse := some (s.engine.respond a off).2 } := by
  simp [busAccess, h, hr]

/-- A read leaves the engine as it was, legal or not (R54). -/
@[simp] theorem respond_read_engine (e : Engine) (addr : Nat) (size : AccessSize) (off : Nat) :
    (e.respond (.read addr size) off).1 = e := by
  simp only [Engine.respond]
  split <;> rfl

theorem legalAccess_eq_false {size : AccessSize} {off : Nat} (h : size ≠ .word ∨ off % 4 ≠ 0) :
    legalAccess size off = false := by
  rcases h with hsize | halign
  · simp [legalAccess, hsize]
  · simp [legalAccess, halign]

theorem respond_read_of_illegal (e : Engine) (addr : Nat) {size : AccessSize} {off : Nat}
    (h : legalAccess size off = false) : e.respond (.read addr size) off = (e, .errorRead 0x00000000#32) := by
  simp [Engine.respond, h]

theorem respond_write_of_illegal (e : Engine) (addr : Nat) {size : AccessSize} {off : Nat} (w : Word)
    (h : legalAccess size off = false) : e.respond (.write addr size w) off = (e, .errorWrite) := by
  simp [Engine.respond, h]

/-- Settles O14: whether or not the engine responds to it, a read leaves all but the answer. -/
theorem readsHaveNoSideEffects : Obligations.ReadsHaveNoSideEffects := by
  intro s t addr size h
  rcases busAccess_next_cases h with rfl | ⟨off, rfl⟩
  · exact ⟨rfl, rfl, rfl, rfl⟩
  · exact ⟨respond_read_engine _ _ _ _, rfl, rfl, rfl⟩

/-- Settles O16: the access is inside the window and fails the legality test. -/
theorem illegalAccessChangesNothing : Obligations.IllegalAccessChangesNothing := by
  intro s off size w hr hoff hbad
  have hillegal : legalAccess size off = false := legalAccess_eq_false hbad
  have hwindow : windowOffset (Config.mexpBase + off) = some off := windowOffset_base off hoff
  constructor
  · rw [busAccess_inside (a := .read _ size) hr hwindow, respond_read_of_illegal _ _ hillegal]
  · rw [busAccess_inside (a := .write _ size w) hr hwindow, respond_write_of_illegal _ _ _ hillegal]

/-- Settles O17: the base is 64 times an index, and the last address of the window is MEXP_BASE + 0x3F. -/
theorem noResponseOutsideTheWindow : Obligations.NoResponseOutsideTheWindow := by
  refine ⟨Nat.mul_mod_right 64 _, fun s a houtside => busAccess_outside s ?_⟩
  rw [windowOffset_eq_none]
  omega

/-! ### Legal reads -/

/-- A legal read of a register answers its read data (R55). -/
theorem busRead_reg (r : WindowReg) {s : State} (hr : s.resetAsserted = false) :
    busRead r.off s = .next (s.answered (s.engine.readReg r)) :=
  busAccess_read r s hr

theorem bitWord_eq_ite (b : Bool) : bitWord b = if b then 1#32 else 0#32 := by
  cases b <;> rfl

/-- Settles O13: `busRead_reg` at each of the sixteen registers. -/
theorem readDataByOffset : Obligations.ReadDataByOffset := by
  intro s hr
  have hctrl : busRead 0x00 s = .next (s.answered (bitWord s.engine.irqEn)) := busRead_reg .ctrl hr
  have hmaxdraw : busRead 0x2C s = .next (s.answered (s.engine.limit.setWidth 32)) := busRead_reg .maxdraw hr
  refine ⟨bitWord_eq_ite _ ▸ hctrl, busRead_reg .status hr, busRead_reg .cmd hr, busRead_reg .opa hr,
    busRead_reg .opb hr, busRead_reg .opc hr, busRead_reg .res hr, busRead_reg .x hr, busRead_reg .y hr,
    busRead_reg .aux hr, busRead_reg .seed hr, BitVec.ofNat_toNat 32 _ ▸ hmaxdraw, busRead_reg .id hr, ?_⟩
  simp only [List.forall_mem_cons, List.not_mem_nil, false_imp_iff, implies_true, and_true]
  exact ⟨busRead_reg .rsv34 hr, busRead_reg .rsv38 hr, busRead_reg .rsv3C hr⟩

/-! ### Legal writes -/

/-- A legal write of a register has its effect and is taken (R56). -/
theorem busWrite_reg (r : WindowReg) (w : Word) {s : State} (hr : s.resetAsserted = false) :
    busWrite r.off w s = .next (s.written (s.engine.writeReg r w)) :=
  busAccess_write r w s hr

/-- A write to CTRL with SRST performs the soft reset (R22, R212). -/
theorem writeReg_ctrl_of_srst (e : Engine) {w : Word} (h : w.getLsbD 1 = true) :
    e.writeReg .ctrl w = Engine.reset := by
  simp only [Engine.writeReg, Engine.writeCtrl, h, if_true]

theorem writeReg_seed_of_idle {e : Engine} (h : e.phase = .idle) (w : Word) :
    e.writeReg .seed w = { e with seed := w } := by
  simp [Engine.writeReg, (not_isBusy_iff e).mpr h]

theorem writeReg_maxdraw_of_idle {e : Engine} (h : e.phase = .idle) (w : Word) :
    e.writeReg .maxdraw w = { e with limit := w.extractLsb' 0 16 } := by
  simp [Engine.writeReg, (not_isBusy_iff e).mpr h]

/-- The registers the host cannot write while BUSY (R62). -/
theorem writeReg_of_busy {e : Engine} (h : e.isBusy = true) {r : WindowReg} (hr : r ∈ [.cmd, .seed, .maxdraw])
    (w : Word) : e.writeReg r w = e.markDropped := by
  cases r with
  | cmd | seed | maxdraw => simp [Engine.writeReg, h]
  | _ => simp at hr

/-- LIMIT's field of a word as its value modulo 2^16. -/
theorem extractLsb'_low_half (w : Word) : w.extractLsb' 0 16 = BitVec.ofNat 16 (w.toNat % 2 ^ 16) :=
  BitVec.eq_of_toNat_eq (by simp)

/-- Settles O12: `busWrite_reg` at each register, with the effect of the write in the case the clause names. -/
theorem writeEffectsByOffset : Obligations.WriteEffectsByOffset := by
  intro s w hr
  refine ⟨fun hno => ?_, fun hsrst => ?_, busWrite_reg .status w hr, busWrite_reg .opa w hr, busWrite_reg .opb w hr,
    busWrite_reg .opc w hr, fun hidle => ?_, fun hidle => ?_, ?_⟩
  · exact writeReg_ctrl_of_no_srst s.engine hno ▸ busWrite_reg .ctrl w hr
  · exact writeReg_ctrl_of_srst s.engine hsrst ▸ busWrite_reg .ctrl w hr
  · exact writeReg_seed_of_idle hidle w ▸ busWrite_reg .seed w hr
  · rw [← extractLsb'_low_half]
    exact writeReg_maxdraw_of_idle hidle w ▸ busWrite_reg .maxdraw w hr
  · simp only [List.forall_mem_cons, List.not_mem_nil, false_imp_iff, implies_true, and_true]
    exact ⟨busWrite_reg .res w hr, busWrite_reg .x w hr, busWrite_reg .y w hr, busWrite_reg .aux w hr,
      busWrite_reg .id w hr, busWrite_reg .rsv34 w hr, busWrite_reg .rsv38 w hr, busWrite_reg .rsv3C w hr⟩

/-- A write of an operand register that takes effect leaves the read data of every other register (R54, R56). -/
theorem readReg_writeReg_operand_of_ne {e : Engine} {r q : WindowReg} (w : Word)
    (h : r ∈ [.opa, .opb, .opc] ∨ r ∈ [.seed, .maxdraw] ∧ e.phase = .idle) (hne : q ≠ r) :
    (e.writeReg r w).readReg q = e.readReg q := by
  simp only [List.mem_cons, List.not_mem_nil, or_false] at h
  rcases h with (rfl | rfl | rfl) | ⟨rfl | rfl, hidle⟩
  · cases q with
    | opa => exact absurd rfl hne
    | _ => rfl
  · cases q with
    | opb => exact absurd rfl hne
    | _ => rfl
  · cases q with
    | opc => exact absurd rfl hne
    | _ => rfl
  · rw [writeReg_seed_of_idle hidle]
    cases q with
    | seed => exact absurd rfl hne
    | _ => rfl
  · rw [writeReg_maxdraw_of_idle hidle]
    cases q with
    | maxdraw => exact absurd rfl hne
    | _ => rfl

/-- Settles O18: a byte outside the written register is among the bytes of another one. -/
theorem operandWriteLeavesOtherBytes : Obligations.OperandWriteLeavesOtherBytes := by
  intro s t r w addr hr hoperand hwrite houtside
  rw [busWrite_reg r w hr] at hwrite
  cases hwrite
  refine byteAt_congr fun q hlow hhigh => readReg_writeReg_operand_of_ne w hoperand ?_
  rintro rfl
  omega

/-! ### Writes while BUSY -/

/-- A write that clears WERR is a soft reset or a write of 1 to STATUS bit 4 (R23, R62). -/
theorem writeReg_clears_werr {e : Engine} {r : WindowReg} {w : Word} (hset : e.werr = true)
    (hclear : (e.writeReg r w).werr = false) :
    e.writeReg r w = Engine.reset ∨ w.getLsbD 4 = true ∧ e.writeReg r w = e.writeStatus w := by
  have hkept : (e.writeReg r w).werr ≠ e.werr := by simp [hset, hclear]
  cases r with
  | ctrl =>
    cases hsrst : w.getLsbD 1 with
    | true => exact .inl (writeReg_ctrl_of_srst e hsrst)
    | false => exact absurd (by rw [writeReg_ctrl_of_no_srst e hsrst]) hkept
  | status => exact .inr ⟨by simpa [Engine.writeReg, hset] using hclear, rfl⟩
  | cmd | seed | maxdraw =>
    simp only [Engine.writeReg] at hclear
    split at hclear <;> simp [hset] at hclear
  | opa | opb | opc | res | x | y | aux | id | rsv34 | rsv38 | rsv3C => exact absurd rfl hkept

/-- WERR stays through every step other than a reset or a write of 1 to STATUS bit 4 (R62). -/
theorem step_clears_werr {s t : State} (hstep : step s = .next t) (hset : s.engine.werr = true)
    (hclear : t.engine.werr = false) :
    t.engine = Engine.reset ∨ ∃ w : Word, w.getLsbD 4 = true ∧ t.engine = s.engine.writeStatus w := by
  rcases step_engine s t hstep with ⟨-, hsame | ⟨-, ⟨r, w, hwrite⟩ | ⟨l, -, hcommit⟩⟩⟩ | hreset
  · rw [hsame, hset] at hclear
    cases hclear
  · rw [hwrite] at hclear ⊢
    exact (writeReg_clears_werr hset hclear).imp id fun hstatus => ⟨w, hstatus⟩
  · obtain ⟨-, -, -, -, -, hwerr, -⟩ := commit_frame (latchResult l) s.engine
    rw [hcommit, hwerr, hset] at hclear
    cases hclear
  · exact .inl hreset

/-- Settles O11: the dropped writes, what clears WERR, and the writes whose effect does not look at PHASE. -/
theorem busyWritesAreDropped : Obligations.BusyWritesAreDropped := by
  refine ⟨?_, fun _ _ => step_clears_werr, ?_⟩
  · intro s l w off hr hbusy hoff
    have hdrop (r : WindowReg) (hmem : r ∈ [.cmd, .seed, .maxdraw]) :
        busWrite r.off w s = .next (s.written s.engine.markDropped) :=
      writeReg_of_busy ((isBusy_iff _).mpr ⟨l, hbusy⟩) hmem w ▸ busWrite_reg r w hr
    simp only [List.mem_cons, List.not_mem_nil, or_false] at hoff
    rcases hoff with rfl | rfl | rfl
    · exact hdrop .cmd (by decide)
    · exact hdrop .seed (by decide)
    · exact hdrop .maxdraw (by decide)
  · intro s l w hr _
    exact ⟨busWrite_reg .opa w hr, busWrite_reg .opb w hr, busWrite_reg .opc w hr, busWrite_reg .status w hr,
      busWrite_reg .ctrl w hr⟩

/-! ### Accept -/

/-- A word that fails the legality test is refused by the decoder (R85, R86). -/
theorem decodeWord_of_illegal {w : Word} (h : legalCommand w = false) : ∃ d, decodeWord w = .error d := by
  unfold decodeWord
  split_ifs with hreserved hopcode hmrtest hrounds
  · exact ⟨_, rfl⟩
  · exact ⟨_, rfl⟩
  · have hlegal : legalCommand w = true := by simp_all [legalCommand]
    simp [hlegal] at h
  · exact ⟨_, rfl⟩
  · have hlegal : legalCommand w = true := by simp_all [legalCommand]
    simp [hlegal] at h

/-- A latched illegal word runs to ILLEGAL_CMD (R86, R105). -/
theorem latchResult_of_illegal {l : Latch} (h : legalCommand l.cmd = false) : latchResult l = illegalCommand l := by
  obtain ⟨d, hd⟩ := decodeWord_of_illegal h
  simp only [latchResult, hd]

/-- While a command stays in flight no step changes a result register or SEED (R31, R60, R62). -/
theorem step_results_of_in_flight {s t : State} {l l' : Latch} (hbusy : s.engine.phase = .busy l)
    (hstep : step s = .next t) (hbusy' : t.engine.phase = .busy l') :
    t.engine.res = s.engine.res ∧ t.engine.x = s.engine.x ∧ t.engine.y = s.engine.y ∧
      t.engine.aux = s.engine.aux ∧ t.engine.seed = s.engine.seed := by
  have hnot_reset : t.engine ≠ Engine.reset := fun hreset => by rw [hreset] at hbusy'; cases hbusy'
  rcases step_engine s t hstep with ⟨-, hsame | ⟨-, ⟨r, w, hwrite⟩ | ⟨_, -, hcommit⟩⟩⟩ | hreset
  · exact hsame ▸ ⟨rfl, rfl, rfl, rfl, rfl⟩
  · rw [hwrite] at hnot_reset ⊢
    obtain ⟨hres, hx, hy, haux⟩ := (s.engine.writeReg_results r w).resolve_left hnot_reset
    rcases s.engine.writeReg_cases r w with hreset | ⟨hidle, -⟩ | hkeeps
    · exact absurd hreset hnot_reset
    · rw [hbusy] at hidle
      cases hidle
    · obtain ⟨-, hseed, -⟩ := hkeeps.latched ((isBusy_iff _).mpr ⟨l, hbusy⟩)
      exact ⟨hres, hx, hy, haux, hseed⟩
  · rw [hcommit, commit_phase] at hbusy'
    cases hbusy'
  · exact absurd hreset hnot_reset

/-- Settles O10: the write is an accept, and an illegal word's completion gives back the generator state it latched. -/
theorem acceptLatchesTheOperands : Obligations.AcceptLatchesTheOperands := by
  refine ⟨?_, fun _ _ _ _ => step_results_of_in_flight⟩
  intro s w hr hidle
  have haccept : busWrite 0x08 w s = .next (s.written (s.engine.accept w)) :=
    writeReg_cmd_of_idle hidle w ▸ busWrite_reg .cmd w hr
  refine ⟨_, haccept, rfl, fun hillegal => ?_⟩
  have hresult : latchResult (s.engine.capture w) = .err .illegalCmd s.engine.seed :=
    latchResult_of_illegal (l := s.engine.capture w) hillegal
  rw [engineEvent_of_busy (s := s.written _) (l := s.engine.capture w) hr rfl, hresult]
  rfl

end Sys2Proof.Machine
end

section
/-! PROOFS. The family of 30_encoding.md: the command word, its decoder and encoder (R80 to R88), the operands a
command uses (R84), and host programs (R89, R90). -/

namespace Sys2Proof.Machine

/-! ### The fields of a command word as arithmetic (R81) -/

theorem cwOp_toNat (w : Word) : (cwOp w).toNat = w.toNat % 16 := by simp [cwOp]

theorem cwRsv0_toNat (w : Word) : (cwRsv0 w).toNat = w.toNat / 16 % 16 := by
  simp [cwRsv0, Nat.shiftRight_eq_div_pow]

theorem cwRounds_toNat (w : Word) : (cwRounds w).toNat = w.toNat / 256 % 256 := by
  simp [cwRounds, Nat.shiftRight_eq_div_pow]

theorem cwRsv1_toNat (w : Word) : (cwRsv1 w).toNat = w.toNat / 2 ^ 16 := by
  have hhalf : w.toNat / 2 ^ 16 < 2 ^ 16 := by omega
  simpa [cwRsv1, Nat.shiftRight_eq_div_pow] using hhalf

/-- The legality test by the fields' values (R85). -/
theorem legalCommand_iff_fields (w : Word) :
    legalCommand w = true ↔
      w.toNat / 2 ^ 16 = 0 ∧ w.toNat / 16 % 16 = 0 ∧ w.toNat % 16 ≤ 7 ∧
        (w.toNat % 16 = 7 ∨ w.toNat / 256 % 256 = 0) := by
  simp [legalCommand, ← BitVec.toNat_inj, BitVec.le_def, cwRsv1_toNat, cwRsv0_toNat, cwOp_toNat, cwRounds_toNat,
    and_assoc]

/-- The legal words by their value (R85). -/
theorem legalCommand_iff_value (w : Word) :
    legalCommand w = true ↔ w.toNat ≤ 6 ∨ ∃ k, k ≤ 255 ∧ w.toNat = 7 + k * 2 ^ 8 := by
  rw [legalCommand_iff_fields]
  constructor
  · rintro ⟨hrsv1, hrsv0, hop, hrounds⟩
    by_cases hmrtest : w.toNat % 16 = 7
    · exact .inr ⟨w.toNat / 256, by omega, by omega⟩
    · exact .inl (by omega)
  · rintro (hplain | ⟨k, hk, hvalue⟩) <;> omega

/-! ### Decoder and encoder -/

theorem wellFormed_mrtest_iff (k : Nat) : (Instr.mrtest k).wellFormed = true ↔ k ≤ 255 := by
  simp [Instr.wellFormed]

/-- MRTEST's word: opcode 7 and the count in bits 15 to 8 (R83). -/
theorem encode_mrtest_toNat {k : Nat} (hk : k ≤ 255) : (encode (.mrtest k)).toNat = 7 + k * 2 ^ 8 := by
  have hdisjoint : 7 ||| k <<< 8 = k <<< 8 + 7 := by
    rw [Nat.or_comm, Nat.shiftLeft_add_eq_or_of_lt (by norm_num)]
  have hshift : k <<< 8 = k * 2 ^ 8 := Nat.shiftLeft_eq k 8
  calc (encode (.mrtest k)).toNat = 7 ||| k <<< 8 % 2 ^ 32 := by simp [encode, Nat.shiftLeft_eq]
    _ = 7 ||| k <<< 8 := by rw [Nat.mod_eq_of_lt (by omega)]
    _ = 7 + k * 2 ^ 8 := by omega

/-- The decoder accepts the word of every well-formed command and gives the command back (R83, R88). -/
theorem decodeWord_encode {i : Instr} (hi : i.wellFormed = true) : decodeWord (encode i) = .ok i := by
  cases i with
  | mrtest k =>
    have hk : k ≤ 255 := (wellFormed_mrtest_iff k).mp hi
    have hvalue := encode_mrtest_toNat hk
    have hrsv1 : cwRsv1 (encode (.mrtest k)) = 0 :=
      BitVec.eq_of_toNat_eq (by rw [cwRsv1_toNat, hvalue]; simp; omega)
    have hrsv0 : cwRsv0 (encode (.mrtest k)) = 0 :=
      BitVec.eq_of_toNat_eq (by rw [cwRsv0_toNat, hvalue]; simp; omega)
    have hop : cwOp (encode (.mrtest k)) = 7 :=
      BitVec.eq_of_toNat_eq (by rw [cwOp_toNat, hvalue]; simp; omega)
    have hrounds : (cwRounds (encode (.mrtest k))).toNat = k := by rw [cwRounds_toNat, hvalue]; omega
    simp [decodeWord, hrsv1, hrsv0, hop, hrounds]
  | _ => decide

/-- Below MRTEST's, an opcode is the word of its command (R83). -/
theorem encode_of_plainCommand {op : BitVec 4} {i : Instr} (h : plainCommand op = .ok i) :
    i.wellFormed = true ∧ (encode i).toNat = op.toNat := by
  unfold plainCommand at h
  split at h <;> cases h
  all_goals exact ⟨rfl, by simp [encode, *]⟩

/-- The decoder accepts no word but a well-formed command's own (R83, R86). -/
theorem encode_of_decodeWord {w : Word} {i : Instr} (h : decodeWord w = .ok i) :
    i.wellFormed = true ∧ encode i = w := by
  have hfields (h : ¬(cwRsv1 w ≠ 0 ∨ cwRsv0 w ≠ 0)) : w.toNat / 2 ^ 16 = 0 ∧ w.toNat / 16 % 16 = 0 := by
    obtain ⟨hrsv1, hrsv0⟩ : cwRsv1 w = 0 ∧ cwRsv0 w = 0 := by simpa using h
    rw [← cwRsv1_toNat, ← cwRsv0_toNat, hrsv1, hrsv0]
    exact ⟨rfl, rfl⟩
  unfold decodeWord at h
  split_ifs at h with hreserved hopcode hmrtest hrounds
  · cases h
    have hop : w.toNat % 16 = 7 := by rw [← cwOp_toNat, hmrtest]; rfl
    have hk : (cwRounds w).toNat ≤ 255 := by omega
    refine ⟨(wellFormed_mrtest_iff _).mpr hk, BitVec.eq_of_toNat_eq ?_⟩
    rw [encode_mrtest_toNat hk, cwRounds_toNat]
    obtain ⟨hrsv1, hrsv0⟩ := hfields hreserved
    omega
  · obtain ⟨hwf, hvalue⟩ := encode_of_plainCommand h
    have hcount : w.toNat / 256 % 256 = 0 := by rw [← cwRounds_toNat, not_not.mp hrounds]; rfl
    refine ⟨hwf, BitVec.eq_of_toNat_eq ?_⟩
    rw [hvalue, cwOp_toNat]
    obtain ⟨hrsv1, hrsv0⟩ := hfields hreserved
    omega

/-- The words the decoder accepts are the well-formed commands' own (R83, R86, R88). -/
theorem decodeWord_eq_ok_iff (w : Word) (i : Instr) :
    decodeWord w = .ok i ↔ i.wellFormed = true ∧ encode i = w := by
  constructor
  · exact encode_of_decodeWord
  · rintro ⟨hwf, rfl⟩
    exact decodeWord_encode hwf

/-- Settles O2: `encode_of_decodeWord`, the half of `decodeWord_eq_ok_iff` that reads the fields back. -/
theorem decodedWordIsTheCommandsEncoding : Obligations.DecodedWordIsTheCommandsEncoding :=
  fun _ _ => encode_of_decodeWord

/-- The four byte lanes of a word carry the whole word (R51). -/
theorem wordOfLanes_laneOfWord (w : Word) :
    wordOfLanes (laneOfWord w 0) (laneOfWord w 1) (laneOfWord w 2) (laneOfWord w 3) = w := by
  have hhigh : w.extractLsb' 24 8 ++ w.extractLsb' 16 8 = w.extractLsb' 16 16 :=
    BitVec.extractLsb'_append_extractLsb'_eq_extractLsb' rfl
  have hupper : w.extractLsb' 16 16 ++ w.extractLsb' 8 8 = w.extractLsb' 8 24 :=
    BitVec.extractLsb'_append_extractLsb'_eq_extractLsb' rfl
  have hall : w.extractLsb' 8 24 ++ w.extractLsb' 0 8 = w.extractLsb' 0 32 :=
    BitVec.extractLsb'_append_extractLsb'_eq_extractLsb' rfl
  calc wordOfLanes (laneOfWord w 0) (laneOfWord w 1) (laneOfWord w 2) (laneOfWord w 3)
      = w.extractLsb' 24 8 ++ w.extractLsb' 16 8 ++ w.extractLsb' 8 8 ++ w.extractLsb' 0 8 := rfl
    _ = w.extractLsb' 0 32 := by rw [hhigh, hupper, hall]
    _ = w := BitVec.extractLsb'_eq_self

/-- The bytes of a word, in lane order, decode as the word (R51, R80). -/
theorem decodeBytes_lanes (w : Word) :
    decodeBytes [laneOfWord w 0, laneOfWord w 1, laneOfWord w 2, laneOfWord w 3] = decodeWord w := by
  rw [decodeBytes, wordOfLanes_laneOfWord]

theorem tableWord_toNat (w : Word) : tableWord 32 w.toNat = w := by
  simp [tableWord, Nat.mod_eq_of_lt w.isLt]

/-- A word in the opcode table's numbering decodes as the word itself. -/
theorem decodeTableWord_toNat {w : Word} {i : Instr} (h : decodeWord w = .ok i) :
    decodeTableWord 32 w.toNat = some i := by
  simp only [decodeTableWord, tableWord_toNat, decodeBytes_lanes, h]

/-- Settles O1: the bytes and the table word of a command are its word on another carrier. -/
theorem decodeInvertsEncode : Obligations.DecodeInvertsEncode := by
  intro i hwf
  have hword : decodeWord (encode i) = .ok i := decodeWord_encode hwf
  exact ⟨hword, (decodeBytes_lanes _).trans hword, decodeTableWord_toNat hword⟩

/-! ### The legal words (R85) -/

/-- The values of the 263 legal words, as the spec lists them (R85). -/
def legalValues : List Nat := List.range 7 ++ (List.range 256).map fun k => 7 + k * 2 ^ 8

theorem mem_legalValues (v : Nat) : v ∈ legalValues ↔ v ≤ 6 ∨ ∃ k, k ≤ 255 ∧ v = 7 + k * 2 ^ 8 := by
  simp only [legalValues, List.mem_append, List.mem_range, List.mem_map]
  constructor
  · rintro (hplain | ⟨k, hk, rfl⟩)
    · exact .inl (by omega)
    · exact .inr ⟨k, by omega, rfl⟩
  · rintro (hplain | ⟨k, hk, rfl⟩)
    · exact .inl (by omega)
    · exact .inr ⟨k, by omega, rfl⟩

theorem lt_of_mem_legalValues {v : Nat} (h : v ∈ legalValues) : v < 2 ^ 32 := by
  rcases (mem_legalValues v).mp h with hplain | ⟨k, hk, rfl⟩ <;> omega

theorem legalValues_nodup : legalValues.Nodup := by
  have hmrtest : ((List.range 256).map fun k => 7 + k * 2 ^ 8).Nodup :=
    List.nodup_range.map fun a b h => by simpa using h
  refine List.nodup_range.append hmrtest fun v hplain hcount => ?_
  simp only [List.mem_range, List.mem_map] at hplain hcount
  omega

/-- The 263 legal words. -/
def legalWords : List Word := legalValues.map (BitVec.ofNat 32)

theorem mem_legalWords (w : Word) : w ∈ legalWords ↔ legalCommand w = true := by
  rw [legalCommand_iff_value, ← mem_legalValues, legalWords, List.mem_map]
  constructor
  · rintro ⟨v, hv, rfl⟩
    rwa [BitVec.toNat_ofNat, Nat.mod_eq_of_lt (lt_of_mem_legalValues hv)]
  · exact fun h => ⟨w.toNat, h, by simp⟩

theorem legalWords_nodup : legalWords.Nodup := by
  refine legalValues_nodup.map_on fun a ha b hb h => ?_
  have hvalue := congrArg BitVec.toNat h
  rwa [BitVec.toNat_ofNat, BitVec.toNat_ofNat, Nat.mod_eq_of_lt (lt_of_mem_legalValues ha),
    Nat.mod_eq_of_lt (lt_of_mem_legalValues hb)] at hvalue

/-- Settles O3: the list of values serves as the list of words. -/
theorem legalWordsAreThe263 : Obligations.LegalWordsAreThe263 :=
  ⟨legalCommand_iff_fields, legalCommand_iff_value, legalWords, by simp [legalWords, legalValues], legalWords_nodup,
    mem_legalWords⟩

/-! ### The opcode map (R83) -/

theorem and_full_mask (w : Word) : w &&& 0xFFFFFFFF#32 = w := BitVec.and_allOnes

/-- Masking with MRTEST's mask clears bits 15 to 8 and keeps the others. -/
theorem and_mrtest_mask_toNat (w : Word) :
    (w &&& 0xFFFF00FF#32).toNat = w.toNat / 2 ^ 16 * 2 ^ 16 + w.toNat % 2 ^ 8 := by
  have hhigh : (w.toNat &&& 0xFFFF00FF) / 2 ^ 16 = w.toNat / 2 ^ 16 := by
    rw [Nat.and_div_two_pow]
    exact Nat.and_two_pow_sub_one_of_lt_two_pow (n := 16) (by omega)
  have hcount : (w.toNat &&& 0xFFFF00FF) / 2 ^ 8 % 2 ^ 8 = 0 := by
    rw [Nat.and_div_two_pow, Nat.and_mod_two_pow]
    exact Nat.and_zero _
  have hlow : (w.toNat &&& 0xFFFF00FF) % 2 ^ 8 = w.toNat % 2 ^ 8 := by
    rw [Nat.and_mod_two_pow]
    exact Nat.and_two_pow_sub_one_of_lt_two_pow (n := 8) (by omega)
  have hand : (w &&& 0xFFFF00FF#32).toNat = w.toNat &&& 0xFFFF00FF := BitVec.toNat_and _ _
  omega

/-- Under the full mask an opcode below MRTEST's matches one word, the legal one with that opcode (R83). -/
theorem and_full_mask_eq_iff {n : Nat} (hn : n ≤ 6) (w : Word) :
    w &&& 0xFFFFFFFF#32 = BitVec.ofNat 32 n ↔ legalCommand w = true ∧ BitVec.ofNat 4 n = cwOp w := by
  rw [and_full_mask, legalCommand_iff_fields, ← BitVec.toNat_inj, ← BitVec.toNat_inj, cwOp_toNat,
    BitVec.toNat_ofNat, BitVec.toNat_ofNat]
  omega

/-- MRTEST's match: opcode 7, the reserved fields 0, and any count (R83). -/
theorem and_mrtest_mask_eq_iff_value (w : Word) :
    w &&& 0xFFFF00FF#32 = 0x00000007#32 ↔ w.toNat / 2 ^ 16 = 0 ∧ w.toNat % 2 ^ 8 = 7 := by
  rw [← BitVec.toNat_inj, and_mrtest_mask_toNat, show (0x00000007#32).toNat = 7 from rfl]
  omega

/-- MRTEST's row selects the legal words with opcode 7. -/
theorem and_mrtest_mask_eq_iff (w : Word) :
    w &&& 0xFFFF00FF#32 = 0x00000007#32 ↔ legalCommand w = true ∧ 7 = cwOp w := by
  rw [and_mrtest_mask_eq_iff_value, legalCommand_iff_fields, ← BitVec.toNat_inj, cwOp_toNat,
    show (7 : BitVec 4).toNat = 7 from rfl]
  omega

/-- A row of the opcode map selects the legal words with its opcode (R83, R85). -/
theorem selects_iff {r : OpcodeRow} (hr : r ∈ opcodeRows) (w : Word) :
    r.selects w = true ↔ legalCommand w = true ∧ r.op = cwOp w := by
  simp only [opcodeRows, List.mem_cons, List.not_mem_nil, or_false] at hr
  rw [OpcodeRow.selects, beq_iff_eq]
  rcases hr with rfl | rfl | rfl | rfl | rfl | rfl | rfl | rfl
  · exact and_full_mask_eq_iff (n := 0) (by decide) w
  · exact and_full_mask_eq_iff (n := 1) (by decide) w
  · exact and_full_mask_eq_iff (n := 2) (by decide) w
  · exact and_full_mask_eq_iff (n := 3) (by decide) w
  · exact and_full_mask_eq_iff (n := 4) (by decide) w
  · exact and_full_mask_eq_iff (n := 5) (by decide) w
  · exact and_full_mask_eq_iff (n := 6) (by decide) w
  · exact and_mrtest_mask_eq_iff w

/-- The opcode map has a row for each opcode up to 7. -/
theorem exists_row_of_le : ∀ op : BitVec 4, op ≤ 7 → ∃ r ∈ opcodeRows, r.op = op := by decide

/-- No two rows of the opcode map have the same opcode. -/
theorem row_eq_of_op_eq : ∀ r ∈ opcodeRows, ∀ r' ∈ opcodeRows, r'.op = r.op → r' = r := by decide

theorem cwOp_le_of_legal {w : Word} (h : legalCommand w = true) : cwOp w ≤ 7 := by
  obtain ⟨-, -, hop, -⟩ := (legalCommand_iff_fields w).mp h
  rwa [← cwOp_toNat] at hop

/-- A well-formed command's own word, under the full mask, is the one word that decodes to it (R83). -/
theorem decodeWord_iff_full_mask {i : Instr} (hi : i.wellFormed = true) (w : Word) :
    decodeWord w = .ok i ↔ w &&& 0xFFFFFFFF#32 = encode i := by
  rw [decodeWord_eq_ok_iff, and_full_mask]
  exact ⟨fun ⟨_, h⟩ => h.symm, fun h => ⟨hi, h.symm⟩⟩

/-- The words of MRTEST are those its match and mask select, whatever the count (R83). -/
theorem decodeWord_mrtest_iff_mask (w : Word) :
    (∃ k, decodeWord w = .ok (.mrtest k)) ↔ w &&& 0xFFFF00FF#32 = 0x00000007#32 := by
  rw [and_mrtest_mask_eq_iff_value]
  constructor
  · rintro ⟨k, hk⟩
    obtain ⟨hwf, rfl⟩ := encode_of_decodeWord hk
    have hle : k ≤ 255 := (wellFormed_mrtest_iff k).mp hwf
    rw [encode_mrtest_toNat hle]
    omega
  · rintro ⟨hhigh, hlow⟩
    have hle : w.toNat / 256 ≤ 255 := by omega
    refine ⟨w.toNat / 256, (decodeWord_eq_ok_iff w _).mpr ⟨(wellFormed_mrtest_iff _).mpr hle, ?_⟩⟩
    refine BitVec.eq_of_toNat_eq ?_
    rw [encode_mrtest_toNat hle]
    omega

/-- Settles O4: the decoder by the commands' own words, and the rows by their opcodes. -/
theorem oneOpcodeRowSelectsEachLegalWord : Obligations.OneOpcodeRowSelectsEachLegalWord := by
  refine ⟨fun w => ?_, fun w hlegal => ?_, fun w hillegal r hr => ?_⟩
  · exact ⟨decodeWord_iff_full_mask rfl w, decodeWord_iff_full_mask rfl w, decodeWord_iff_full_mask rfl w,
      decodeWord_iff_full_mask rfl w, decodeWord_iff_full_mask rfl w, decodeWord_iff_full_mask rfl w,
      decodeWord_iff_full_mask rfl w, decodeWord_mrtest_iff_mask w⟩
  · obtain ⟨r, hr, hop⟩ := exists_row_of_le (cwOp w) (cwOp_le_of_legal hlegal)
    refine ⟨r, hr, hop, (selects_iff hr w).mpr ⟨hlegal, hop⟩, fun r' hr' hselects => ?_⟩
    obtain ⟨-, hop'⟩ := (selects_iff hr' w).mp hselects
    exact row_eq_of_op_eq r hr r' hr' (hop'.trans hop.symm)
  · rw [Bool.eq_false_iff, ne_eq, selects_iff hr, hillegal]
    simp

/-- Settles O5: the decoder run on the sixteen words. -/
theorem wordsOfTheSpecDecode : Obligations.WordsOfTheSpecDecode := by
  unfold Obligations.WordsOfTheSpecDecode
  decide

/-! ### Illegal words (R86, R104, R105) -/

/-- Settles O9: the accept is that of any word (O10), and the latched word runs to ILLEGAL_CMD. -/
theorem illegalWordCompletesWithIllegalCmd : Obligations.IllegalWordCompletesWithIllegalCmd := by
  constructor
  · intro s w hr hidle _
    obtain ⟨haccepts, -⟩ := acceptLatchesTheOperands
    obtain ⟨t, hwrite, rfl, -⟩ := haccepts s w hr hidle
    exact hwrite
  · intro s l rest hr hbusy hillegal hagenda
    rw [step_of_cons hagenda, perform, engineEvent_of_busy (s := { s with agenda := rest }) hr hbusy,
      latchResult_of_illegal hillegal]
    rfl

/-! ### The operands a command uses (R84) -/

/-- A command's result depends on the generator state, the draw limit and the operands it uses alone (R84, R163). -/
theorem commandResult_congr {i : Instr} {l l' : Latch} (hrng : l'.rng = l.rng) (hmaxdraw : l'.maxdraw = l.maxdraw)
    (ha : i ≠ .nop → l'.a = l.a) (hb : i ∈ [.modpow, .modmul, .egcd, .modinv, .mrwit] → l'.b = l.b)
    (hc : i ∈ [.modpow, .modmul] → l'.c = l.c) : commandResult i l' = commandResult i l := by
  cases i with
  | nop => simp only [commandResult, nop, hrng]
  | modpow =>
    simp only [commandResult, modpow, Latch.opA, Latch.opB, Latch.opC, hrng, ha (by simp), hb (by simp), hc (by simp)]
  | modmul =>
    simp only [commandResult, modmul, Latch.opA, Latch.opB, Latch.opC, hrng, ha (by simp), hb (by simp), hc (by simp)]
  | egcd => simp only [commandResult, egcdCommand, Latch.opA, Latch.opB, hrng, ha (by simp), hb (by simp)]
  | modinv => simp only [commandResult, modinv, Latch.opA, Latch.opB, hrng, ha (by simp), hb (by simp)]
  | decomp => simp only [commandResult, decompCommand, Latch.opA, hrng, ha (by simp)]
  | mrwit => simp only [commandResult, mrwit, Latch.opA, Latch.opB, hrng, ha (by simp), hb (by simp)]
  | mrtest k => simp only [commandResult, mrtest, Latch.opA, Latch.tries, hrng, hmaxdraw, ha (by simp)]

/-- A commit leaves the engine IDLE, so the latch it ends leaves no trace of its own. -/
theorem commit_with_phase (r : Result) (e : Engine) (p : Phase) :
    Engine.commit r { e with phase := p } = e.commit r := by
  cases r <;> rfl

/-- Settles O49: both completions commit one result. -/
theorem unusedOperandsDoNotMatter : Obligations.UnusedOperandsDoNotMatter := by
  intro i s l l' hbusy hrng hmaxdraw ha hb hc
  rw [exec_eq_complete, exec_eq_complete, complete_busy _ _ l' rfl, complete_busy _ _ l hbusy, commit_with_phase,
    commandResult_congr hrng hmaxdraw ha hb hc]

/-! ### One host operation (R89) -/

section
variable {s : State} {k : Nat} {h : HostAgent} {op : HostOp}

/-- An operation that makes no access changes its host alone. -/
theorem hostEvent_of_local (hk : s.hosts[k]? = some h) (hop : h.prog[h.pc]? = some op)
    (hlocal : h.accessOf op = none) : hostEvent k s = .next (s.updateHost k (h.after none op)) := by
  simp only [hostEvent, hk, hop, hlocal]

/-- An operation that makes an access goes on with the engine's answer. -/
theorem hostEvent_of_access {a : Access} {s' : State} (hk : s.hosts[k]? = some h) (hop : h.prog[h.pc]? = some op)
    (haccess : h.accessOf op = some a) (hbus : busAccess a s = .next s') :
    hostEvent k s = .next (s'.updateHost k (h.after s'.lastResponse op)) := by
  simp only [hostEvent, hk, hop, haccess, hbus]

/-- R puts the register's read data into the temporary. -/
theorem hostEvent_read {r : WindowReg} {t : Fin 8} (hr : s.resetAsserted = false) (hk : s.hosts[k]? = some h)
    (hop : h.prog[h.pc]? = some (.read r t)) :
    hostEvent k s =
      .next ((s.answered (s.engine.readReg r)).updateHost k (h.setTemp t (s.engine.readReg r))) :=
  hostEvent_of_access hk hop rfl (busAccess_read r s hr)

/-- W writes the operand's value to the register. -/
theorem hostEvent_write {r : WindowReg} {v : HostVal} (hr : s.resetAsserted = false) (hk : s.hosts[k]? = some h)
    (hop : h.prog[h.pc]? = some (.write r v)) :
    hostEvent k s = .next ((s.written (s.engine.writeReg r (h.value v))).updateHost k h.advance) :=
  hostEvent_of_access hk hop rfl (busAccess_write r (h.value v) s hr)

/-- HALT leaves the machine as it was (R225). -/
theorem hostEvent_halt (hk : s.hosts[k]? = some h) (hop : h.prog[h.pc]? = some .halt) : hostEvent k s = .next s := by
  have hsame : s.hosts.set k h = s.hosts := by
    obtain ⟨hlt, rfl⟩ := List.getElem?_eq_some_iff.mp hk
    exact List.set_getElem_self hlt
  rw [hostEvent_of_local hk hop rfl]
  simp only [HostAgent.after, State.updateHost, hsame]

end

/-- Settles O57: `hostEvent_write` and `hostEvent_read`, whose next states are the ones written out. -/
theorem hostBusOperations : Obligations.HostBusOperations :=
  fun _ _ _ _ hr hk => ⟨fun _ => hostEvent_write hr hk, fun _ => hostEvent_read hr hk⟩

theorem branch_beq (h : HostAgent) (a b : Word) (target : Nat) :
    h.branch (a == b) target = { h with pc := if a = b then target else h.pc + 1 } := by
  simp [HostAgent.branch]

theorem branch_bne (h : HostAgent) (a b : Word) (target : Nat) :
    h.branch (a != b) target = { h with pc := if a = b then h.pc + 1 else target } := by
  by_cases hab : a = b <;> simp [HostAgent.branch, hab]

/-- Bit i of a word by its value. -/
theorem getLsbD_eq_decide (w : Word) (i : Nat) : w.getLsbD i = decide (w.toNat / 2 ^ i % 2 = 1) :=
  Nat.testBit_eq_decide_div_mod_eq

theorem not_getLsbD_eq_decide (w : Word) (i : Nat) : (!w.getLsbD i) = decide (w.toNat / 2 ^ i % 2 = 0) := by
  rw [getLsbD_eq_decide, ← decide_not]
  simp

theorem branch_decide (h : HostAgent) (p : Prop) [Decidable p] (target : Nat) :
    h.branch (decide p) target = { h with pc := if p then target else h.pc + 1 } := by
  simp [HostAgent.branch]

/-- Settles O58: `hostEvent_of_local` at each operation, the branch conditions read by the words' values. -/
theorem hostLocalOperations : Obligations.HostLocalOperations := by
  intro s k h t v b target hk
  refine ⟨fun hop => hostEvent_of_local hk hop rfl, fun hop => ?_, fun hop => ?_, fun hop => ?_, fun hop => ?_,
    fun hop => ?_, fun hop => hostEvent_of_local hk hop rfl, hostEvent_halt hk⟩
  · rw [hostEvent_of_local hk hop rfl, ← BitVec.add_def]
    rfl
  · rw [hostEvent_of_local hk hop rfl, HostAgent.after, branch_beq]
    rfl
  · rw [hostEvent_of_local hk hop rfl, HostAgent.after, branch_bne]
    rfl
  · rw [hostEvent_of_local hk hop rfl, HostAgent.after, not_getLsbD_eq_decide, branch_decide]
    rfl
  · rw [hostEvent_of_local hk hop rfl, HostAgent.after, getLsbD_eq_decide, branch_decide]
    rfl

/-! ### The pseudo-instructions (R90) -/

/-- Two steps, each with a next state. -/
theorem stepN_two {s t u : State} (hst : step s = .next t) (htu : step t = .next u) : stepN 2 s = some u := by
  simp only [stepN, hst, htu]

/-- DONE is bit 1 of the STATUS word (R23). -/
theorem statusWord_done (e : Engine) : e.statusWord.getLsbD 1 = e.done :=
  statusFieldsAtTheirBits e 1 (by decide)

/-- The host just written back is the one found under its number. -/
theorem updateHost_hosts_same {s : State} {k : Nat} {h : HostAgent} (hk : s.hosts[k]? = some h) (h' : HostAgent) :
    (s.updateHost k h').hosts[k]? = some h' := by
  obtain ⟨hlt, -⟩ := List.getElem?_eq_some_iff.mp hk
  rw [State.updateHost_hosts, List.getElem?_set_self hlt]

/-- The machine after host k's read of STATUS to t7, with the events still to come. -/
def State.afterStatusRead (k : Nat) (h : HostAgent) (agenda : List Event) (s : State) : State :=
  ({ s with agenda := agenda }.answered s.engine.statusWord).updateHost k (h.setTemp 7 s.engine.statusWord)

/-- The first operation of a WAIT. -/
theorem step_wait_read {s : State} {k : Nat} {h : HostAgent} {rest : List Event} (hr : s.resetAsserted = false)
    (hk : s.hosts[k]? = some h) (hagenda : s.agenda = .host k :: rest)
    (hread : h.prog[h.pc]? = some (.read .status 7)) : step s = .next (s.afterStatusRead k h rest) := by
  rw [step_of_cons hagenda]
  exact hostEvent_read (s := { s with agenda := rest }) hr hk hread

/-- The second operation of a WAIT: the branch back, taken while DONE is 0. -/
theorem step_wait_branch {s : State} {k : Nat} {h : HostAgent} {rest : List Event} (hk : s.hosts[k]? = some h)
    (hbranch : h.prog[h.pc + 1]? = some (.bbc 7 1 h.pc)) :
    step (s.afterStatusRead k h (.host k :: rest)) =
      .next ((s.afterStatusRead k h rest).updateHost k
        ((h.setTemp 7 s.engine.statusWord).branch (!s.engine.done) h.pc)) := by
  have hk' : (s.afterStatusRead k h rest).hosts[k]? = some (h.setTemp 7 s.engine.statusWord) :=
    updateHost_hosts_same hk _
  have hevent := hostEvent_of_local hk' hbranch rfl
  rw [HostAgent.after, temp_setTemp, if_pos rfl] at hevent
  rw [← statusWord_done]
  exact hevent

/-- Settles O60: a read of STATUS to t7, then a branch back on its bit 1. -/
theorem waitEndsWhenDone : Obligations.WaitEndsWhenDone := by
  intro s k h rest hr hk hagenda hread hbranch
  have hread_step := step_wait_read hr hk hagenda hread
  have hbranch_step := step_wait_branch (rest := rest) hk hbranch
  refine ⟨_, _, stepN_two hread_step hbranch_step, rfl, updateHost_hosts_same (updateHost_hosts_same hk _) _, rfl,
    ?_, ?_⟩
  · cases s.engine.done <;> rfl
  · rw [branch_temp, temp_setTemp, if_pos rfl]

/-- A lone CALL is its writes, if it has any, and the WAIT that stands after them. -/
theorem assembleHost_call (c : HostCall) :
    assembleHost [.call c] = c.writes.map fun ws => ws ++ waitOps ws.length := by
  cases hwrites : c.writes <;> simp [assembleHost, definedLabels, expandLines, HostLine.expand, hwrites]

/-- MRTEST's command word with its count written as a number (R83). -/
theorem encode_mrtest_eq (k : Nat) : encode (.mrtest k) = 0x00000007#32 ||| BitVec.ofNat 32 (k * 2 ^ 8) := by
  have hshift : BitVec.ofNat 32 k <<< 8 = BitVec.ofNat 32 (k * 2 ^ 8) :=
    BitVec.eq_of_toNat_eq (by simp [Nat.shiftLeft_eq])
  rw [encode, hshift]

/-- Settles O59: the assembler run on each line; only MRTEST's count needs its bounds. -/
theorem callExpansions : Obligations.CallExpansions := by
  intro a b c k
  refine ⟨rfl, rfl, rfl, rfl, rfl, rfl, rfl, rfl, rfl, fun hk => ?_, fun hk => ?_⟩
  · rw [assembleHost_call, HostCall.writes, if_pos hk, encode_mrtest_eq]
    rfl
  · rw [assembleHost_call, HostCall.writes, if_neg (by omega)]
    rfl

end Sys2Proof.Machine
end

section
/-! PROOFS. The family of 40_engine_cycle.md: completion of the command in flight (R100 to R102, R105), NOP (R106), and
the bound on EGCD's loop (R107). -/

namespace Sys2Proof.Machine

/-! ### A command's meaning (R100, R101) -/

/-- Settles O8: every command's meaning is a completion, and none is defined while IDLE. -/
theorem noCompletionWhileIdle : Obligations.NoCompletionWhileIdle := by
  intro i s hidle
  rw [exec_eq_complete, complete_idle _ s hidle]

theorem exec_of_busy (i : Instr) {s : State} {l : Latch} (h : s.engine.phase = .busy l) :
    exec i s = .next { s with engine := s.engine.commit (commandResult i l) } := by
  rw [exec_eq_complete, complete_busy _ s l h]

/-- Settles O48: the outcome is `commandResult`, which takes the command and the latch alone. -/
theorem outcomeDependsOnTheLatchOnly : Obligations.OutcomeDependsOnTheLatchOnly :=
  fun i l => ⟨commandResult i l, fun _ hbusy => exec_of_busy i hbusy⟩

/-! ### The step runs the decoded command (R102, R105) -/

/-- The engine's event decodes the latched word, then runs the command (R105). -/
theorem engineEvent_of_decoded {s : State} {l : Latch} {i : Instr} (hr : s.resetAsserted = false)
    (hbusy : s.engine.phase = .busy l) (hdecode : decodeWord l.cmd = .ok i) : engineEvent s = exec i s := by
  have hresult : latchResult l = commandResult i l := by simp only [latchResult, hdecode]
  rw [engineEvent_of_busy hr hbusy, hresult, exec_of_busy i hbusy]

/-- A step whose next event is the completion runs the decoded command (R102). -/
theorem step_of_completion {s : State} {l : Latch} {i : Instr} {rest : List Event} (hr : s.resetAsserted = false)
    (hbusy : s.engine.phase = .busy l) (hdecode : decodeWord l.cmd = .ok i) (hagenda : s.agenda = .completion :: rest) :
    step s = exec i { s with agenda := rest } := by
  rw [step_of_cons hagenda]
  exact engineEvent_of_decoded (s := { s with agenda := rest }) hr hbusy hdecode

theorem tableWord_eq_ofNat (w : Nat) : tableWord 32 w = BitVec.ofNat 32 w :=
  BitVec.eq_of_toNat_eq (by simp [tableWord])

/-- What the table's numbering decodes to is what the decoder reads from the word. -/
theorem decodeWord_of_decodeTableWord {w : Nat} {i : Instr} (h : decodeTableWord 32 w = some i) :
    decodeWord (tableWord 32 w) = .ok i := by
  rw [decodeTableWord, decodeBytes_lanes] at h
  cases hdecode : decodeWord (tableWord 32 w) with
  | ok j => simpa [hdecode] using h
  | error d => simp [hdecode] at h

/-- Settles O6: with the serial order empty or at the completion the step is `engineEvent`, and `withFetchWord` puts
the completion next. -/
theorem stepRunsTheDecodedCommand : Obligations.StepRunsTheDecodedCommand := by
  constructor
  · intro s l i rest hr hbusy hdecode
    refine ⟨fun hnil => ?_, step_of_completion hr hbusy hdecode⟩
    rw [step_of_nil hnil, engineEvent_of_decoded hr hbusy hdecode]
  · intro s w i htable
    have hdecode : decodeWord (s.engine.capture (tableWord 32 w)).cmd = .ok i := decodeWord_of_decodeTableWord htable
    rw [step_of_completion (s := s.withFetchWord 32 w) rfl rfl hdecode rfl, ← tableWord_eq_ofNat]
    rfl

/-! ### NOP (R106) -/

/-- A word with opcode 0 that is not NOP's word is illegal (R106). -/
theorem legalCommand_eq_false_of_op_zero {w : Word} (hop : w.toNat % 16 = 0) (hne : w ≠ 0x00000000#32) :
    legalCommand w = false := by
  have hpos : w.toNat ≠ 0 := fun h => hne (BitVec.eq_of_toNat_eq h)
  rw [Bool.eq_false_iff, ne_eq, legalCommand_iff_value]
  rintro (hplain | ⟨k, -, hmrtest⟩) <;> omega

/-- Settles O24: NOP commits no writes, and the other words with opcode 0 run to ILLEGAL_CMD. -/
theorem nopCompletes : Obligations.NopCompletes := by
  refine ⟨rfl, fun s l hbusy => exec_of_busy .nop hbusy, fun w hop hne => ?_⟩
  have hillegal : legalCommand w = false := legalCommand_eq_false_of_op_zero hop hne
  refine ⟨hillegal, fun s l hr hbusy hcmd => ?_⟩
  rw [engineEvent_of_busy hr hbusy, latchResult_of_illegal (hcmd ▸ hillegal)]
  rfl

/-! ### A command in flight (R100, R102) -/

theorem Engine.KeepsCommand.refl (e : Engine) : e.KeepsCommand e :=
  ⟨rfl, rfl, rfl, id, fun _ => ⟨rfl, rfl, rfl⟩⟩

/-- A step keeps the command in flight, commits the outcome of its latch, or resets the engine (R102, R210, R212). -/
theorem step_cases_of_busy {s t : State} {l : Latch} (hbusy : s.engine.phase = .busy l) (hstep : step s = .next t) :
    s.engine.KeepsCommand t.engine ∨ t.engine = s.engine.commit (latchResult l) ∨ t.engine = Engine.reset := by
  rcases step_engine s t hstep with ⟨-, hsame | ⟨-, ⟨r, w, hwrite⟩ | ⟨l', hbusy', hcommit⟩⟩⟩ | hreset
  · exact .inl (hsame ▸ .refl _)
  · rcases s.engine.writeReg_cases r w with hreset | ⟨hidle, -⟩ | hkeeps
    · exact .inr (.inr (hwrite.trans hreset))
    · rw [hbusy] at hidle
      cases hidle
    · exact .inl (hwrite ▸ hkeeps)
  · rw [hbusy] at hbusy'
    cases hbusy'
    exact .inr (.inl hcommit)
  · exact .inr (.inr hreset)

/-- Settles O52: a step that keeps the command in flight keeps its registers and the result registers too. -/
theorem commandInFlightEndsByCompletionOrReset : Obligations.CommandInFlightEndsByCompletionOrReset := by
  intro s t l hbusy hstep
  refine (step_cases_of_busy hbusy hstep).imp_left fun hkeeps => ?_
  have hbusy' : t.engine.phase = .busy l := hkeeps.phase.trans hbusy
  obtain ⟨hcmd, hseed, hlimit⟩ := hkeeps.latched ((isBusy_iff _).mpr ⟨l, hbusy⟩)
  obtain ⟨hres, hx, hy, haux, -⟩ := step_results_of_in_flight hbusy hstep hbusy'
  exact ⟨hbusy', hcmd, hres, hx, hy, haux, hseed, hlimit⟩

/-! ### A BUSY engine completes (R102) -/

/-- In the invariant's states no command is in flight while the reset input is asserted (R210). -/
theorem State.Inv.released_of_busy {s : State} {l : Latch} (hinv : s.Inv) (hbusy : s.engine.phase = .busy l) :
    s.resetAsserted = false := by
  rw [Bool.eq_false_iff]
  intro hr
  rw [hinv.held hr] at hbusy
  cases hbusy

theorem stepN_succ {s t : State} (h : step s = .next t) (n : Nat) : stepN (n + 1) s = stepN n t := by
  simp only [stepN, h]

/-- A step without a next state ends the run. -/
theorem stepN_one_eq_none {s : State} (h : ∀ t, step s ≠ .next t) : stepN 1 s = none := by
  cases hstep : step s with
  | next t => exact absurd hstep (h t)
  | fault f => simp only [stepN, hstep]
  | refused r => simp only [stepN, hstep]

/-- Within n steps the engine is IDLE, or the run has stopped. -/
def IdleWithin (n : Nat) (s : State) : Prop :=
  ∃ k, k ≤ n ∧ (stepN k s = none ∨ ∃ t, stepN k s = some t ∧ t.engine.phase = .idle)

theorem idleWithin_of_idle {s : State} (h : s.engine.phase = .idle) (n : Nat) : IdleWithin n s :=
  ⟨0, n.zero_le, .inr ⟨s, rfl, h⟩⟩

theorem IdleWithin.of_step {s t : State} {n : Nat} (h : IdleWithin n t) (hstep : step s = .next t) :
    IdleWithin (n + 1) s := by
  obtain ⟨k, hk, hrun⟩ := h
  exact ⟨k + 1, by omega, by rwa [stepN_succ hstep]⟩

/-- Each event takes one entry off the serial order, and after the last one the engine completes (R102). -/
theorem idleWithin_agenda (agenda : List Event) {s : State} (hinv : s.Inv) (hagenda : s.agenda = agenda) :
    IdleWithin (agenda.length + 1) s := by
  induction agenda generalizing s with
  | nil =>
    cases hphase : s.engine.phase with
    | idle => exact idleWithin_of_idle hphase _
    | busy l =>
      have hstep := (step_of_nil hagenda).trans (engineEvent_of_busy (hinv.released_of_busy hphase) hphase)
      exact (idleWithin_of_idle (commit_phase _ _) 0).of_step hstep
  | cons ev rest ih =>
    by_cases hnext : ∃ t, step s = .next t
    · obtain ⟨t, hstep⟩ := hnext
      have hrest : t.agenda = rest := by rw [step_agenda s t hstep, hagenda, List.tail_cons]
      exact (ih (stepKeepsTheInvariant s t hinv hstep) hrest).of_step hstep
    · exact ⟨1, by omega, .inl (stepN_one_eq_none (not_exists.mp hnext))⟩

/-- Settles O54: `idleWithin_agenda` at the machine's own serial order. -/
theorem busyEngineCompletes : Obligations.BusyEngineCompletes :=
  fun s _ hinv _ => idleWithin_agenda s.agenda hinv rfl

/-! ### The bound on EGCD's loop (R107) -/

/-- At remainder 0 the loop returns, whatever bound is left. -/
theorem egcdLoop_zero (bound r0 : Nat) (s0 s1 t0 t1 : Int) :
    egcdLoop bound r0 0 s0 s1 t0 t1 = (r0, s0, t0) := by
  cases bound with
  | zero => rfl
  | succ bound => simp [egcdLoop]

/-- One iteration: the remainder of the division by r1 is the next r1 (R128). -/
theorem egcdLoop_succ (bound r0 : Nat) {r1 : Nat} (h : r1 ≠ 0) (s0 s1 t0 t1 : Int) :
    egcdLoop (bound + 1) r0 r1 s0 s1 t0 t1 =
      egcdLoop bound r1 (r0 % r1) s1 (s0 - ((r0 / r1 : Nat) : Int) * s1) t1
        (t0 - ((r0 / r1 : Nat) : Int) * t1) := by
  have hmod : r0 - r0 / r1 * r1 = r0 % r1 := Nat.mod_eq_sub_div_mul.symm
  simp only [egcdLoop, if_neg h, hmod]

/-- Lamé's bound: a larger operand below fib (m + 3), or a smaller one below fib (m + 2), leaves the loop at most m
iterations, so a higher bound changes nothing. -/
theorem egcdLoop_eq_of_lt_fib {m n r0 r1 : Nat} (hmn : m ≤ n) (hlt : r1 < r0)
    (hfib : r0 < Nat.fib (m + 3) ∨ r1 < Nat.fib (m + 2)) (s0 s1 t0 t1 : Int) :
    egcdLoop m r0 r1 s0 s1 t0 t1 = egcdLoop n r0 r1 s0 s1 t0 t1 := by
  induction m generalizing n r0 r1 s0 s1 t0 t1 with
  | zero =>
    have hdone : r1 = 0 := by
      have hfib_two : Nat.fib (0 + 2) = 1 := rfl
      have hfib_three : Nat.fib (0 + 3) = 2 := rfl
      omega
    rw [hdone, egcdLoop_zero, egcdLoop_zero]
  | succ m ih =>
    obtain ⟨n, rfl⟩ : ∃ k, n = k + 1 := ⟨n - 1, by omega⟩
    by_cases hdone : r1 = 0
    · rw [hdone, egcdLoop_zero, egcdLoop_zero]
    · have hmod : r0 % r1 < r1 := Nat.mod_lt _ (Nat.pos_of_ne_zero hdone)
      -- The quotient is at least 1, so r1 and the next remainder together fit below r0.
      have hsum : r1 + r0 % r1 ≤ r0 :=
        calc r1 + r0 % r1 = r1 + (r0 - r1) % r1 := by rw [Nat.mod_eq_sub_mod hlt.le]
          _ ≤ r1 + (r0 - r1) := Nat.add_le_add_left (Nat.mod_le _ _) _
          _ = r0 := Nat.add_sub_cancel' hlt.le
      have hfib_succ : Nat.fib (m + 4) = Nat.fib (m + 2) + Nat.fib (m + 3) := Nat.fib_add_two
      have hfib' : r1 < Nat.fib (m + 3) ∨ r0 % r1 < Nat.fib (m + 2) := by
        rcases hfib with hlarge | hsmall
        · have hlarge' : r0 < Nat.fib (m + 4) := hlarge
          omega
        · exact .inl hsmall
      rw [egcdLoop_succ _ _ hdone, egcdLoop_succ _ _ hdone]
      exact ih (by omega) hmod hfib' _ _ _ _

/-- On 32-bit operands 46 iterations are enough: the first orders the two, and fib 48 is above 2^32. -/
theorem egcdLoop_eq_of_lt_two_pow {m n a b : Nat} (hm : 46 ≤ m) (hmn : m ≤ n) (hb : b < 2 ^ 32)
    (s0 s1 t0 t1 : Int) : egcdLoop m a b s0 s1 t0 t1 = egcdLoop n a b s0 s1 t0 t1 := by
  obtain ⟨m, rfl⟩ : ∃ k, m = k + 1 := ⟨m - 1, by omega⟩
  obtain ⟨n, rfl⟩ : ∃ k, n = k + 1 := ⟨n - 1, by omega⟩
  by_cases hdone : b = 0
  · rw [hdone, egcdLoop_zero, egcdLoop_zero]
  · have hfib : b < Nat.fib (m + 3) :=
      calc b < 2 ^ 32 := hb
        _ ≤ Nat.fib 48 := by norm_num
        _ ≤ Nat.fib (m + 3) := Nat.fib_mono (by omega)
    rw [egcdLoop_succ _ _ hdone, egcdLoop_succ _ _ hdone]
    exact egcdLoop_eq_of_lt_fib (by omega) (Nat.mod_lt _ (Nat.pos_of_ne_zero hdone)) (.inl hfib) _ _ _ _

/-- Settles O30: the loop at the bound agrees with one whose bound is past the second operand, which is egcd. -/
theorem egcdTakesAtMost47Iterations : Obligations.EgcdTakesAtMost47Iterations := by
  intro a b bound _ hb hbound
  calc egcdLoop bound a b 1 0 0 1 = egcdLoop (bound + (b + 1)) a b 1 0 0 1 :=
        egcdLoop_eq_of_lt_two_pow (by omega) (by omega) hb _ _ _ _
    _ = egcd a b := by rw [egcd, egcdLoop_eq _ _ _ _ _ _ _ (by omega), egcdLoop_eq _ _ _ _ _ _ _ (by omega)]

end Sys2Proof.Machine
end

section
/-! PROOFS. The family of 41_modular_arithmetic.md: MODPOW (R121 to R124), MODMUL (R125), EGCD (R127 to R132) and
MODINV (R133 to R135). -/

namespace Sys2Proof.Machine

/-! ### The commit of a known result -/

theorem exec_of_ok {i : Instr} {s : State} {l : Latch} {ws : Writes} {g : Word} (hbusy : s.engine.phase = .busy l)
    (h : commandResult i l = .ok ws g) : exec i s = .next { s with engine := s.engine.commitSuccess ws g } := by
  rw [exec_of_busy i hbusy, h, Engine.commit_ok]

theorem exec_of_err {i : Instr} {s : State} {l : Latch} {c : ErrorCode} {g : Word} (hbusy : s.engine.phase = .busy l)
    (h : commandResult i l = .err c g) : exec i s = .next { s with engine := s.engine.commitError c g } := by
  rw [exec_of_busy i hbusy, h, Engine.commit_err]

/-! ### Words as integers (R10) -/

theorem toNat_eq_zero_iff {w : Word} : w.toNat = 0 ↔ w = 0#32 := by
  rw [← BitVec.toNat_inj, BitVec.toNat_zero]

theorem toNat_ne_zero_of_ne {w : Word} (h : w ≠ 0#32) : w.toNat ≠ 0 :=
  mt toNat_eq_zero_iff.mp h

theorem resultWord_toNat {v : Nat} (h : v < 2 ^ 32) : (resultWord v).toNat = v :=
  (BitVec.toNat_ofNat v 32).trans (Nat.mod_eq_of_lt h)

@[simp] theorem resultWord_of_toNat (w : Word) : resultWord w.toNat = w := by
  simp [resultWord]

/-- A register read as signed gives back the integer written, if that fits 31 bits and a sign (R130). -/
theorem s32_u32 {v : Int} (h : 2 * |v| < 2 ^ 32) : s32 (u32 v) = v := by
  have hnat : ((u32 v).toNat : Int) = v % 2 ^ 32 := by
    simp [u32]
    omega
  have hlow : -2 ^ 31 < v := by linarith [neg_abs_le v]
  have hhigh : v < 2 ^ 31 := by linarith [le_abs_self v]
  unfold s32
  split <;> omega

/-! ### MODPOW and MODMUL (R121 to R125) -/

theorem commandResult_modpow {l : Latch} (h : l.c ≠ 0#32) :
    commandResult .modpow l = .ok { res := some (resultWord (l.opA ^ l.opB % l.opC)) } l.rng := by
  rw [commandResult, modpow, if_neg (toNat_ne_zero_of_ne h), powMod_eq _ _ _ (toNat_ne_zero_of_ne h)]

theorem commandResult_modpow_modulus_zero {l : Latch} (h : l.c = 0#32) :
    commandResult .modpow l = .err .zeroModulus l.rng :=
  if_pos (toNat_eq_zero_iff.mpr h)

/-- Settles O25: the loop computes the power, and modulus 0 is refused before it. -/
theorem modpowIsThePowerModulo : Obligations.ModpowIsThePowerModulo :=
  ⟨rfl, fun _ _ hbusy hc => exec_of_ok hbusy (commandResult_modpow hc),
    fun _ _ hbusy hc => exec_of_err hbusy (commandResult_modpow_modulus_zero hc)⟩

theorem commandResult_modmul {l : Latch} (h : l.c ≠ 0#32) :
    commandResult .modmul l = .ok { res := some (resultWord (l.opA * l.opB % l.opC)) } l.rng := by
  rw [commandResult, modmul, if_neg (toNat_ne_zero_of_ne h), mulmod_eq]

theorem commandResult_modmul_modulus_zero {l : Latch} (h : l.c = 0#32) :
    commandResult .modmul l = .err .zeroModulus l.rng :=
  if_pos (toNat_eq_zero_iff.mpr h)

/-- Settles O26: the product is exact, and modulus 0 is refused before it. -/
theorem modmulIsTheProductModulo : Obligations.ModmulIsTheProductModulo :=
  ⟨rfl, fun _ _ hbusy hc => exec_of_ok hbusy (commandResult_modmul hc),
    fun _ _ hbusy hc => exec_of_err hbusy (commandResult_modmul_modulus_zero hc)⟩

/-! ### The triple of the recursive definition (R127, R130, R131) -/

theorem egcdSpec_of_dvd {a b : Nat} (hb : b ≠ 0) (h : b ∣ a) : egcdSpec a b = (b, 0, 1) := by
  rw [egcdSpec_pos a b hb, Nat.mod_eq_zero_of_dvd h, egcdSpec_zero]
  simp

/-- With the smaller operand first the first division only swaps the two. -/
theorem egcdSpec_of_lt {a b : Nat} (h : a < b) :
    egcdSpec a b = ((egcdSpec b a).1, (egcdSpec b a).2.2, (egcdSpec b a).2.1) := by
  rw [egcdSpec_pos a b (by omega), Nat.mod_eq_of_lt h, Nat.div_eq_of_lt h]
  simp

theorem egcdSpec_fst_lt {a b m : Nat} (ha : a < m) (hb : b < m) : (egcdSpec a b).1 < m := by
  rw [egcdSpec_gcd]
  by_cases h : b = 0
  · simpa [h] using ha
  · exact (Nat.gcd_le_right a (Nat.pos_of_ne_zero h)).trans_lt hb

/-- The coefficients are at most half the other operand, but for a y of 1 (R130). -/
theorem egcdSpec_coeff_le (a b : Nat) (hb : b ≠ 0) :
    2 * |(egcdSpec a b).2.1| ≤ b ∧ 2 * |(egcdSpec a b).2.2| ≤ max (a : Int) 2 := by
  induction b using Nat.strong_induction_on generalizing a with
  | _ b ih =>
    rw [egcdSpec_pos a b hb]
    by_cases hr : a % b = 0
    · simp [hr, egcdSpec_zero]
    · obtain ⟨hx, hy⟩ := ih (a % b) (Nat.mod_lt _ (Nat.pos_of_ne_zero hb)) b hr
      -- A remainder other than 0 leaves no room for the exception in y.
      have hb_two : 2 ≤ b := by
        have hlt : a % b < b := Nat.mod_lt _ (Nat.pos_of_ne_zero hb)
        omega
      rw [max_eq_left (by exact_mod_cast hb_two)] at hy
      refine ⟨hy, le_max_of_le_left ?_⟩
      set x := (egcdSpec b (a % b)).2.1
      set y := (egcdSpec b (a % b)).2.2
      have hdiv : ((a / b : Nat) : Int) * b + ((a % b : Nat) : Int) = a := by
        exact_mod_cast Nat.div_add_mod' a b
      calc 2 * |x - ((a / b : Nat) : Int) * y|
          ≤ 2 * (|x| + |((a / b : Nat) : Int) * y|) := by gcongr; exact abs_sub _ _
        _ = 2 * |x| + ((a / b : Nat) : Int) * (2 * |y|) := by rw [abs_mul, Nat.abs_cast]; ring
        _ ≤ ((a % b : Nat) : Int) + ((a / b : Nat) : Int) * b := by gcongr
        _ = a := by rw [add_comm, hdiv]

/-- On 32-bit operands the coefficients fit the signed reading of a register (R130). -/
theorem egcdSpec_coeff_lt {a b : Nat} (ha : a < 2 ^ 32) (hb : b < 2 ^ 32) :
    2 * |(egcdSpec a b).2.1| < 2 ^ 32 ∧ 2 * |(egcdSpec a b).2.2| < 2 ^ 32 := by
  by_cases h : b = 0
  · simp [h, egcdSpec_zero]
  · obtain ⟨hx, hy⟩ := egcdSpec_coeff_le a b h
    omega

/-! ### EGCD (R128 to R132) -/

theorem commandResult_egcd (l : Latch) :
    commandResult .egcd l = .ok
      { res := some (resultWord (egcdSpec l.opA l.opB).1)
        x := some (u32 (egcdSpec l.opA l.opB).2.1)
        y := some (u32 (egcdSpec l.opA l.opB).2.2) } l.rng := by
  simp only [commandResult, egcdCommand, egcd_eq_spec]

/-- Settles O27: EGCD commits the triple of the iterative form, which is the recursive definition's. -/
theorem egcdReturnsTheRecursiveTriple : Obligations.EgcdReturnsTheRecursiveTriple :=
  ⟨rfl, fun _ l hbusy => exec_of_ok hbusy (commandResult_egcd l), egcd_eq_spec⟩

/-- The registers of a completed EGCD. -/
theorem exec_egcd_registers {s t : State} {l : Latch} (hbusy : s.engine.phase = .busy l)
    (h : exec .egcd s = .next t) :
    t.engine.err = false ∧ t.engine.res = resultWord (egcdSpec l.opA l.opB).1 ∧
      t.engine.x = u32 (egcdSpec l.opA l.opB).2.1 ∧ t.engine.y = u32 (egcdSpec l.opA l.opB).2.2 := by
  rw [exec_of_ok hbusy (commandResult_egcd l)] at h
  cases h
  exact ⟨rfl, rfl, rfl, rfl⟩

theorem exec_egcd_res_toNat {s t : State} {l : Latch} (hbusy : s.engine.phase = .busy l)
    (h : exec .egcd s = .next t) : t.engine.res.toNat = Nat.gcd l.opA l.opB := by
  obtain ⟨-, hres, -, -⟩ := exec_egcd_registers hbusy h
  rw [hres, resultWord_toNat (egcdSpec_fst_lt l.a.isLt l.b.isLt), egcdSpec_gcd]

/-- The registers of a completed EGCD whose triple is known, its gcd as a word. -/
theorem exec_egcd_of_triple {s t : State} {l : Latch} (hbusy : s.engine.phase = .busy l)
    (h : exec .egcd s = .next t) {g : Word} {x y : Int} (htriple : egcdSpec l.opA l.opB = (g.toNat, x, y)) :
    t.engine.res = g ∧ t.engine.x = u32 x ∧ t.engine.y = u32 y := by
  obtain ⟨-, hres, hx, hy⟩ := exec_egcd_registers hbusy h
  rw [htriple] at hres hx hy
  exact ⟨hres.trans (resultWord_of_toNat g), hx, hy⟩

theorem exec_egcd_of_b_zero {s t : State} {l : Latch} (hbusy : s.engine.phase = .busy l)
    (h : exec .egcd s = .next t) (hb : l.b = 0#32) :
    t.engine.res = l.a ∧ t.engine.x = 1#32 ∧ t.engine.y = 0#32 :=
  exec_egcd_of_triple hbusy h (by rw [Latch.opB, hb]; exact egcdSpec_zero _)

theorem exec_egcd_of_dvd {s t : State} {l : Latch} (hbusy : s.engine.phase = .busy l)
    (h : exec .egcd s = .next t) (hb : l.b ≠ 0#32) (hdvd : l.opB ∣ l.opA) :
    t.engine.res = l.b ∧ t.engine.x = 0#32 ∧ t.engine.y = 1#32 :=
  exec_egcd_of_triple hbusy h (egcdSpec_of_dvd (toNat_ne_zero_of_ne hb) hdvd)

/-- Settles O28: Bezout's identity of the recursive definition, with coefficients the registers hold exactly. -/
theorem egcdSatisfiesBezout : Obligations.EgcdSatisfiesBezout := by
  intro s l hbusy
  have hexec := exec_of_ok hbusy (commandResult_egcd l)
  obtain ⟨herr, -, hx, hy⟩ := exec_egcd_registers hbusy hexec
  have hres := exec_egcd_res_toNat hbusy hexec
  obtain ⟨hxlt, hylt⟩ := egcdSpec_coeff_lt l.a.isLt l.b.isLt
  refine ⟨_, hexec, herr, hres, ?_, exec_egcd_of_b_zero hbusy hexec⟩
  rw [hx, hy, s32_u32 hxlt, s32_u32 hylt, hres, egcdSpec_bezout, egcdSpec_gcd]

/-- Settles O29: the triple at a second operand 0, at one that divides the first, and at the swapped pair. -/
theorem egcdCornerCases : Obligations.EgcdCornerCases := by
  intro s t l hbusy h
  refine ⟨exec_egcd_of_b_zero hbusy h, ?_, fun ha hb => ?_, fun hab hb => ?_, fun hlt => ?_⟩
  · rw [← toNat_eq_zero_iff, exec_egcd_res_toNat hbusy h, Nat.gcd_eq_zero_iff, toNat_eq_zero_iff, toNat_eq_zero_iff]
  · exact exec_egcd_of_dvd hbusy h hb (by rw [Latch.opA, ha]; exact dvd_zero _)
  · rw [hab]
    exact exec_egcd_of_dvd hbusy h hb (by rw [Latch.opA, hab])
  · have hexec := exec_of_ok (s := { s with engine := { s.engine with phase := .busy { l with a := l.b, b := l.a } } })
      rfl (commandResult_egcd _)
    obtain ⟨-, hres, hx, hy⟩ := exec_egcd_registers hbusy h
    rw [egcdSpec_of_lt hlt] at hres hx hy
    exact ⟨_, hexec, hres, hx, hy⟩

/-! ### MODINV (R133 to R135) -/

/-- EGCD's first coefficient reduced to [0, b): MODINV's result for coprime operands. -/
def reducedCoeff (a b : Nat) : Nat := ((egcdSpec a b).2.1 % (b : Int)).toNat

theorem reducedCoeff_cast (a : Nat) {b : Nat} (hb : b ≠ 0) :
    (reducedCoeff a b : Int) = (egcdSpec a b).2.1 % (b : Int) :=
  Int.toNat_of_nonneg (Int.emod_nonneg _ (by exact_mod_cast hb))

theorem reducedCoeff_lt (a : Nat) {b : Nat} (hb : b ≠ 0) : reducedCoeff a b < b := by
  have hlt : (egcdSpec a b).2.1 % (b : Int) < b := Int.emod_lt_of_pos _ (by omega)
  rw [← reducedCoeff_cast a hb] at hlt
  exact_mod_cast hlt

/-- Bezout's identity modulo b. -/
theorem mul_reducedCoeff_modEq {a b : Nat} (hb : b ≠ 0) (hgcd : Nat.gcd a b = 1) :
    a * reducedCoeff a b ≡ 1 [MOD b] := by
  have hbezout := egcdSpec_bezout a b
  rw [egcdSpec_gcd, hgcd] at hbezout
  rw [← Int.natCast_modEq_iff]
  push_cast
  rw [reducedCoeff_cast a hb]
  calc (a : Int) * ((egcdSpec a b).2.1 % b) ≡ a * (egcdSpec a b).2.1 [ZMOD b] := (Int.mod_modEq _ _).mul_left _
    _ ≡ a * (egcdSpec a b).2.1 + b * (egcdSpec a b).2.2 [ZMOD b] := by simp [Int.ModEq]
    _ = 1 := by exact_mod_cast hbezout

theorem eq_of_mul_modEq {a b d d' : Nat} (hgcd : Nat.gcd a b = 1) (hd : d < b) (hd' : d' < b)
    (h : a * d ≡ a * d' [MOD b]) : d = d' :=
  (Nat.ModEq.cancel_left_of_coprime (Nat.gcd_comm a b ▸ hgcd) h).eq_of_lt_of_lt hd hd'

theorem commandResult_modinv_coprime {l : Latch} (hb : l.b ≠ 0#32) (hgcd : Nat.gcd l.opA l.opB = 1) :
    commandResult .modinv l = .ok { res := some (resultWord (reducedCoeff l.opA l.opB)) } l.rng := by
  rw [commandResult, modinv, if_neg (toNat_ne_zero_of_ne hb), egcd_eq_spec,
    if_neg (not_not_intro ((egcdSpec_gcd _ _).trans hgcd)), reducedCoeff]

theorem commandResult_modinv_not_coprime {l : Latch} (hb : l.b ≠ 0#32) (hgcd : Nat.gcd l.opA l.opB ≠ 1) :
    commandResult .modinv l = .err .noInverse l.rng := by
  rw [commandResult, modinv, if_neg (toNat_ne_zero_of_ne hb), egcd_eq_spec, if_pos (by rwa [egcdSpec_gcd])]

theorem commandResult_modinv_modulus_zero {l : Latch} (h : l.b = 0#32) :
    commandResult .modinv l = .err .zeroModulus l.rng :=
  if_pos (toNat_eq_zero_iff.mpr h)

/-- Settles O31: the reduced Bezout coefficient is an inverse, and a coprime factor cancels. -/
theorem modinvIsTheInverseModulo : Obligations.ModinvIsTheInverseModulo := by
  refine ⟨rfl, fun s l hbusy hb hgcd => ?_,
    fun _ _ hbusy hb hgcd => exec_of_err hbusy (commandResult_modinv_not_coprime hb hgcd),
    fun _ _ hbusy hb => exec_of_err hbusy (commandResult_modinv_modulus_zero hb)⟩
  have hpos : l.opB ≠ 0 := toNat_ne_zero_of_ne hb
  have hlt : reducedCoeff l.opA l.opB < l.opB := reducedCoeff_lt _ hpos
  have hinverse : l.opA * reducedCoeff l.opA l.opB ≡ 1 [MOD l.opB] := mul_reducedCoeff_modEq hpos hgcd
  exact ⟨reducedCoeff l.opA l.opB, hlt, hinverse,
    fun d' hd' h => eq_of_mul_modEq hgcd hd' hlt (Nat.ModEq.trans h hinverse.symm),
    exec_of_ok hbusy (commandResult_modinv_coprime hb hgcd)⟩

end Sys2Proof.Machine
end

section
/-! PROOFS. The family of 42_primality.md: DECOMP (R150 to R152), the shortcuts and one round (R153 to R155), MRWIT
(R156, R157), the witness generator (R159 to R162) and MRTEST (R163 to R166). -/

namespace Sys2Proof.Machine

/-! ### DECOMP (R150 to R152) -/

/-- A 32-bit n has room for at most 31 factors of 2 in n - 1 (R151). -/
theorem decomp_snd_le {n : Nat} (hn : 2 ≤ n) (hlt : n < 2 ^ 32) : (decomp n).2 ≤ 31 := by
  obtain ⟨hsplit, -⟩ := decomp_spec n hn
  have hdvd : 2 ^ (decomp n).2 ∣ n - 1 := ⟨_, hsplit⟩
  have hpow : 2 ^ (decomp n).2 < 2 ^ 32 := (Nat.le_of_dvd (by omega) hdvd).trans_lt (by omega)
  exact Nat.le_of_lt_succ ((Nat.pow_lt_pow_iff_right (by norm_num)).mp hpow)

theorem commandResult_decomp {l : Latch} (h : 2 ≤ l.opA) :
    commandResult .decomp l =
      .ok { res := some (resultWord (decomp l.opA).1), aux := some (resultWord (decomp l.opA).2) } l.rng :=
  if_neg (not_lt.mpr h)

theorem commandResult_decomp_out_of_range {l : Latch} (h : l.opA < 2) :
    commandResult .decomp l = .err .operandRange l.rng :=
  if_pos h

/-- Settles O32: n - 1 is split at its trailing zeros. -/
theorem decompSplitsNMinusOne : Obligations.DecompSplitsNMinusOne := by
  refine ⟨rfl, fun s l hbusy h => ?_, fun _ _ hbusy h => exec_of_err hbusy (commandResult_decomp_out_of_range h)⟩
  obtain ⟨hsplit, hodd⟩ := decomp_spec l.opA h
  exact ⟨(decomp l.opA).1, (decomp l.opA).2, hodd, decomp_snd_le h l.a.isLt, hsplit,
    exec_of_ok hbusy (commandResult_decomp h)⟩

/-! ### The shortcuts (R153) -/

theorem shortcut_of_odd {n : Nat} (hn : 5 ≤ n) (hodd : n % 2 = 1) : shortcut n = none := by
  rw [shortcut, if_neg (by omega), if_neg (by omega), if_neg (by omega)]

/-- The three ranges of the shortcuts, each with its verdict as RES holds it. -/
theorem shortcut_of_range {n : Nat} {verdict : Word}
    (h : (n ≤ 1 ∧ verdict = 0#32) ∨ ((n = 2 ∨ n = 3) ∧ verdict = 1#32) ∨ (2 < n ∧ n % 2 = 0 ∧ verdict = 0#32)) :
    ∃ b, shortcut n = some b ∧ verdictWord b = verdict := by
  rcases h with ⟨hle, rfl⟩ | ⟨hprime, rfl⟩ | ⟨hlt, heven, rfl⟩
  · exact ⟨false, if_pos hle, rfl⟩
  · exact ⟨true, by rw [shortcut, if_neg (by omega), if_pos hprime], rfl⟩
  · exact ⟨false, by rw [shortcut, if_neg (by omega), if_neg (by omega), if_pos heven], rfl⟩

/-- A shortcut decides primality exactly; where there is none, n is odd and at least 5. -/
theorem shortcut_cases (n : Nat) :
    shortcut n = some false ∧ ¬ n.Prime ∨ shortcut n = some true ∧ n.Prime ∨ shortcut n = none ∧ 5 ≤ n := by
  unfold shortcut
  split_ifs with hle hprime heven
  · exact .inl ⟨rfl, fun hp => absurd hp.two_le (by omega)⟩
  · exact .inr (.inl ⟨rfl, by rcases hprime with rfl | rfl <;> norm_num⟩)
  · refine .inl ⟨rfl, fun hp => ?_⟩
    rcases hp.eq_two_or_odd with htwo | hodd <;> omega
  · exact .inr (.inr ⟨rfl, by omega⟩)

/-! ### One round (R154, R155) -/

theorem le_of_two_pow_mul_eq {r r' d d' : Nat} (hd' : d' % 2 = 1) (h : 2 ^ r * d = 2 ^ r' * d') : r ≤ r' := by
  have hcoprime : Nat.Coprime (2 ^ r) d' := (Nat.coprime_two_left.mpr (Nat.odd_iff.mpr hd')).pow_left r
  have hdvd : 2 ^ r ∣ 2 ^ r' := hcoprime.dvd_of_dvd_mul_right (h ▸ Nat.dvd_mul_right _ _)
  exact (Nat.pow_dvd_pow_iff_le_right (by norm_num)).mp hdvd

/-- The split of a number into a power of 2 and an odd factor is unique. -/
theorem two_pow_mul_odd_unique {r r' d d' : Nat} (hd : d % 2 = 1) (hd' : d' % 2 = 1)
    (h : 2 ^ r * d = 2 ^ r' * d') : r = r' ∧ d = d' := by
  have hr : r = r' := le_antisymm (le_of_two_pow_mul_eq hd' h) (le_of_two_pow_mul_eq hd h.symm)
  subst hr
  exact ⟨rfl, Nat.eq_of_mul_eq_mul_left (by positivity) h⟩

/-- For odd n the power of 2 in n - 1 is not 2 ^ 0, so a round has the squarings R154 speaks of. -/
theorem one_le_decomp_snd {n : Nat} (hn : 5 ≤ n) (hodd : n % 2 = 1) : 1 ≤ (decomp n).2 := by
  obtain ⟨hsplit, hd⟩ := decomp_spec n (by omega)
  rw [Nat.one_le_iff_ne_zero]
  intro hzero
  rw [hzero] at hsplit
  omega

/-- The machine's round is the mathematical one. -/
theorem mrRound_iff_passesRound {n : Nat} (hn : 5 ≤ n) (hodd : n % 2 = 1) (a : Nat) :
    mrRound n (decomp n).1 (decomp n).2 a = true ↔ PassesRound n a := by
  obtain ⟨hsplit, hd⟩ := decomp_spec n (by omega)
  rw [mrRound_iff n _ _ a (by omega) (one_le_decomp_snd hn hodd)]
  constructor
  · exact fun h => ⟨_, _, hsplit, hd, h⟩
  · rintro ⟨d, r, hsplit', hd', h⟩
    obtain ⟨rfl, rfl⟩ := two_pow_mul_odd_unique hd' hd (hsplit'.symm.trans hsplit)
    exact h

/-- Repeated square roots of 1 where only 1 and -1 are square roots of 1. -/
theorem pow_eq_one_or_exists_eq_neg_one {R : Type} [CommRing R] [NoZeroDivisors R] {x : R} {d r : Nat}
    (h : x ^ (2 ^ r * d) = 1) : x ^ d = 1 ∨ ∃ i, i < r ∧ x ^ (2 ^ i * d) = -1 := by
  induction r with
  | zero => exact .inl (by simpa using h)
  | succ r ih =>
    have hsq : x ^ (2 ^ r * d) * x ^ (2 ^ r * d) = 1 := by
      rw [← pow_add, ← two_mul, ← mul_assoc, ← pow_succ', h]
    rcases mul_self_eq_one_iff.mp hsq with hone | hneg
    · rcases ih hone with hd | ⟨i, hi, hneg⟩
      · exact .inl hd
      · exact .inr ⟨i, by omega, hneg⟩
    · exact .inr ⟨r, by omega, hneg⟩

theorem mod_eq_one_of_cast_eq_one {n v : Nat} (hn : 1 < n) (h : (v : ZMod n) = 1) : v % n = 1 := by
  rw [← Nat.cast_one, ZMod.natCast_eq_natCast_iff', Nat.mod_eq_of_lt hn] at h
  exact h

theorem mod_eq_sub_one_of_cast_eq_neg_one {n v : Nat} (hn : 1 < n) (h : (v : ZMod n) = -1) : v % n = n - 1 := by
  have hneg : ((n - 1 : Nat) : ZMod n) = -1 := by simp [Nat.cast_pred (by omega : 0 < n)]
  rw [← hneg, ZMod.natCast_eq_natCast_iff', Nat.mod_eq_of_lt (by omega : n - 1 < n)] at h
  exact h

/-- Settles O43: by Fermat's little theorem a ^ (n - 1) is 1, and 1 has no other square roots than 1 and n - 1. -/
theorem primesPassEveryRound : Obligations.PrimesPassEveryRound := by
  intro n a hn hprime ha hle
  have : Fact n.Prime := ⟨hprime⟩
  have hodd : n % 2 = 1 := hprime.eq_two_or_odd.resolve_left (by omega)
  obtain ⟨hsplit, -⟩ := decomp_spec n (by omega)
  have hunit : (a : ZMod n) ≠ 0 := by
    rw [Ne, ZMod.natCast_eq_zero_iff]
    exact Nat.not_dvd_of_pos_of_lt (by omega) (by omega)
  have hfermat : (a : ZMod n) ^ (2 ^ (decomp n).2 * (decomp n).1) = 1 := by
    rw [← hsplit, ZMod.pow_card_sub_one_eq_one hunit]
  rw [mrRound_iff n _ _ a (by omega) (one_le_decomp_snd hn hodd)]
  rcases pow_eq_one_or_exists_eq_neg_one hfermat with hone | ⟨i, hi, hneg⟩
  · exact .inl (mod_eq_one_of_cast_eq_one (by omega) (by exact_mod_cast hone))
  · exact .inr ⟨i, hi, mod_eq_sub_one_of_cast_eq_neg_one (by omega) (by exact_mod_cast hneg)⟩

/-! ### MRWIT (R156, R157) -/

theorem commandResult_mrwit_of_shortcut {l : Latch} {verdict : Bool} (h : shortcut l.opA = some verdict) :
    commandResult .mrwit l = .ok { res := some (verdictWord verdict), aux := some 0#32 } l.rng := by
  simp only [commandResult, mrwit, h]

theorem commandResult_mrwit_of_witness {l : Latch} (hn : 5 ≤ l.opA) (hodd : l.opA % 2 = 1) (hlow : 2 ≤ l.opB)
    (hhigh : l.opB ≤ l.opA - 2) :
    commandResult .mrwit l =
      .ok { res := some (verdictWord (mrRound l.opA (decomp l.opA).1 (decomp l.opA).2 l.opB))
            aux := some l.b } l.rng := by
  simp only [commandResult, mrwit, shortcut_of_odd hn hodd, resultWord_of_toNat]
  exact if_neg (by omega)

theorem commandResult_mrwit_witness_out_of_range {l : Latch} (hn : 5 ≤ l.opA) (hodd : l.opA % 2 = 1)
    (h : l.opB < 2 ∨ l.opA - 2 < l.opB) : commandResult .mrwit l = .err .witnessRange l.rng := by
  simp only [commandResult, mrwit, shortcut_of_odd hn hodd, if_pos h]

/-- Settles O33: the shortcut is taken before the witness is looked at. -/
theorem mrwitShortcuts : Obligations.MrwitShortcuts := by
  intro s l verdict hbusy hrange
  obtain ⟨b, hshortcut, rfl⟩ := shortcut_of_range hrange
  exact exec_of_ok hbusy (commandResult_mrwit_of_shortcut hshortcut)

/-- A round's verdict as RES holds it. -/
theorem verdictWord_mrRound {n : Nat} (hn : 5 ≤ n) (hodd : n % 2 = 1) (a : Nat) :
    verdictWord (mrRound n (decomp n).1 (decomp n).2 a) = 1#32 ∧ PassesRound n a ∨
      verdictWord (mrRound n (decomp n).1 (decomp n).2 a) = 0#32 ∧ ¬ PassesRound n a := by
  rw [← mrRound_iff_passesRound hn hodd]
  cases mrRound n (decomp n).1 (decomp n).2 a with
  | true => exact .inl ⟨rfl, rfl⟩
  | false => exact .inr ⟨rfl, Bool.false_ne_true⟩

/-- Settles O34: with no shortcut the witness's range is checked and then one round runs. -/
theorem mrwitRunsOneRound : Obligations.MrwitRunsOneRound :=
  ⟨rfl,
    fun _ _ hbusy hn hodd hlow hhigh =>
      ⟨_, verdictWord_mrRound hn hodd _, exec_of_ok hbusy (commandResult_mrwit_of_witness hn hodd hlow hhigh)⟩,
    fun _ _ hbusy hn hodd h => exec_of_err hbusy (commandResult_mrwit_witness_out_of_range hn hodd h)⟩

/-! ### The generator and witness selection (R159 to R162) -/

/-- Masking a draw reduces it modulo a power of 2. -/
theorem candidate_eq_mod (n : Nat) (rng : Word) : candidate n rng = rng.toNat % 2 ^ bitlen (witnessSpan n - 1) :=
  Nat.and_two_pow_sub_one_eq_mod _ _

/-- A first draw that is accepted ends the selection. -/
theorem drawWitness_of_first_draw {next : Word → Word} {n tries : Nat} {rng : Word} (htries : 1 ≤ tries)
    (h : candidate n (next rng) < witnessSpan n) :
    drawWitness next n tries rng = (some (2 + candidate n (next rng)), next rng) := by
  obtain ⟨tries, rfl⟩ : ∃ k, tries = k + 1 := ⟨tries - 1, by omega⟩
  exact if_pos h

theorem shiftLeft_eq_ofNat (x : Word) (k : Nat) : x <<< k = BitVec.ofNat 32 (x.toNat * 2 ^ k) := by
  rw [← BitVec.toNat_inj, BitVec.toNat_shiftLeft, BitVec.toNat_ofNat, Nat.shiftLeft_eq]

theorem ushiftRight_eq_ofNat (x : Word) (k : Nat) : x >>> k = BitVec.ofNat 32 (x.toNat / 2 ^ k) := by
  rw [← BitVec.toNat_inj, BitVec.toNat_ushiftRight, Nat.shiftRight_eq_div_pow, BitVec.toNat_ofNat,
    Nat.mod_eq_of_lt ((Nat.div_le_self _ _).trans_lt x.isLt)]

theorem rngNext_zero : rngNext 0#32 = 0#32 := by decide

theorem drawn_rngNext_zero (j : Nat) : drawn rngNext 0#32 j = 0#32 :=
  Function.iterate_fixed rngNext_zero j

/-- Settles O35: the shifts as arithmetic, the fixed point 0, and the candidate 0 it gives. -/
theorem generatorIsXorshift32 : Obligations.GeneratorIsXorshift32 := by
  refine ⟨fun x => ⟨_, _, rfl, rfl, ?_⟩, rngNext_zero, by decide, by decide, by decide, by decide, by decide,
    drawn_rngNext_zero, fun n maxdraw hn _ hmaxdraw => ?_⟩
  · simp only [rngNext, xorshift32, shiftLeft_eq_ofNat, ushiftRight_eq_ofNat]
  · have hcandidate : candidate n (rngNext 0#32) = 0 := by
      rw [rngNext_zero, candidate_eq_mod, BitVec.toNat_zero, Nat.zero_mod]
    have haccepted : candidate n (rngNext 0#32) < witnessSpan n := by
      rw [hcandidate, witnessSpan]
      omega
    rw [drawWitness_of_first_draw hmaxdraw haccepted, hcandidate, rngNext_zero]

/-- Settles O36: the two outcomes of the selection, with the mask as a remainder. -/
theorem witnessIsTheFirstAcceptedDraw : Obligations.WitnessIsTheFirstAcceptedDraw := by
  intro next n maxdraw rng _ _
  rcases drawWitness_cases next n maxdraw rng with ⟨hdraw, hrejected⟩ | ⟨j, hj, hfirst, hdraw⟩
  · refine .inr ⟨fun j hone hj => ?_, hdraw⟩
    have hj' := hrejected j hone hj
    rwa [candidate_eq_mod] at hj'
  · rw [candidate_eq_mod] at hdraw
    exact .inl ⟨j, hfirst, hj, hdraw⟩

theorem drawWitness_range {next : Word → Word} {n tries a : Nat} {rng rng' : Word} (hn : 5 ≤ n)
    (h : drawWitness next n tries rng = (some a, rng')) : 2 ≤ a ∧ a ≤ n - 2 := by
  rcases drawWitness_cases next n tries rng with ⟨hdraw, -⟩ | ⟨j, -, ⟨-, hlt, -⟩, hdraw⟩
  · cases hdraw.symm.trans h
  · cases hdraw.symm.trans h
    exact witness_range n _ hn hlt

theorem bitlen_le_of_lt {v b : Nat} (h : v < 2 ^ b) : bitlen v ≤ b := by
  by_cases hv : v = 0
  · simp [bitlen, hv]
  · have hpow : 2 ^ (bitlen v - 1) < 2 ^ b := (two_pow_bitlen_le v hv).trans_lt h
    have hlt := (Nat.pow_lt_pow_iff_right (by norm_num)).mp hpow
    omega

/-- A power-of-two span is the whole range of the mask, so every draw is accepted. -/
theorem candidate_lt_of_power_of_two_span {n j : Nat} (h : n = 2 ^ j + 3) (rng : Word) :
    candidate n rng < witnessSpan n := by
  have hspan : witnessSpan n = 2 ^ j := by rw [witnessSpan, h, Nat.add_sub_cancel]
  rw [candidate_eq_mod, hspan]
  have hbits : bitlen (2 ^ j - 1) ≤ j := bitlen_le_of_lt (Nat.sub_lt (by positivity) one_pos)
  calc rng.toNat % 2 ^ bitlen (2 ^ j - 1) < 2 ^ bitlen (2 ^ j - 1) := Nat.mod_lt _ (by positivity)
    _ ≤ 2 ^ j := Nat.pow_le_pow_right (by norm_num) hbits

theorem le_witnessMask (n : Nat) : witnessSpan n - 1 ≤ witnessMask n :=
  Nat.le_sub_one_of_lt (lt_two_pow_bitlen _)

/-- The mask has the bit length of span - 1, so less than half of its values are rejected. -/
theorem witnessMask_lt {n : Nat} (hn : 5 ≤ n) : witnessMask n < 2 * witnessSpan n - 1 := by
  have hspan : 2 ≤ witnessSpan n := Nat.le_sub_of_add_le hn
  have hhalf : 2 ^ (bitlen (witnessSpan n - 1) - 1) ≤ witnessSpan n - 1 := two_pow_bitlen_le _ (by omega)
  have hdouble : 2 ^ bitlen (witnessSpan n - 1) ≤ 2 * 2 ^ (bitlen (witnessSpan n - 1) - 1) := by
    rw [← pow_succ']
    exact Nat.pow_le_pow_right (by norm_num) (by omega)
  rw [witnessMask]
  omega

/-- Settles O37: the range of the witness, the bounds of the mask, and the two extreme cases. -/
theorem witnessSelectionBounds : Obligations.WitnessSelectionBounds :=
  fun _ n _ _ hn _ => ⟨fun _ _ h => drawWitness_range hn h, le_witnessMask n, witnessMask_lt hn,
    fun _ hpower hmaxdraw => ⟨_, drawWitness_of_first_draw hmaxdraw (candidate_lt_of_power_of_two_span hpower _)⟩,
    rfl⟩

/-! ### The rounds of MRTEST (R163) -/

theorem mrRounds_of_exhausted {next : Word → Word} {n maxdraw : Nat} {rng rng' : Word} (k last : Nat)
    (hdraw : drawWitness next n maxdraw rng = (none, rng')) :
    mrRounds next n maxdraw (k + 1) rng last = .err .rngExhausted rng' := by
  rw [mrRounds, hdraw]

theorem mrRounds_of_pass {next : Word → Word} {n maxdraw a : Nat} {rng rng' : Word} (k last : Nat)
    (hdraw : drawWitness next n maxdraw rng = (some a, rng'))
    (hpass : mrRound n (decomp n).1 (decomp n).2 a = true) :
    mrRounds next n maxdraw (k + 1) rng last = mrRounds next n maxdraw k rng' a := by
  rw [mrRounds, hdraw]
  exact if_pos hpass

theorem mrRounds_of_fail {next : Word → Word} {n maxdraw a : Nat} {rng rng' : Word} (k last : Nat)
    (hdraw : drawWitness next n maxdraw rng = (some a, rng'))
    (hfail : ¬ mrRound n (decomp n).1 (decomp n).2 a = true) :
    mrRounds next n maxdraw (k + 1) rng last = .ok { res := some 0#32, aux := some (resultWord a) } rng' := by
  rw [mrRounds, hdraw]
  exact if_neg hfail

/-- How the rounds can end: RNG_EXHAUSTED by a selection that failed, RES = 1, or RES = 0 by a drawn witness that
fails its round. -/
theorem mrRounds_cases (next : Word → Word) (n maxdraw k : Nat) (rng : Word) (last : Nat) :
    (∃ g g', drawWitness next n maxdraw g = (none, g') ∧
      mrRounds next n maxdraw k rng last = .err .rngExhausted g') ∨
    ∃ ws g', mrRounds next n maxdraw k rng last = .ok ws g' ∧
      (ws.res = some 1#32 ∨ ws.res = some 0#32 ∧
        ∃ g a, drawWitness next n maxdraw g = (some a, g') ∧ ¬ mrRound n (decomp n).1 (decomp n).2 a = true) := by
  induction k generalizing rng last with
  | zero => exact .inr ⟨_, _, rfl, .inl rfl⟩
  | succ k ih =>
    rcases hdraw : drawWitness next n maxdraw rng with ⟨_ | a, rng'⟩
    · exact .inl ⟨rng, rng', hdraw, mrRounds_of_exhausted k last hdraw⟩
    · by_cases hpass : mrRound n (decomp n).1 (decomp n).2 a = true
      · rw [mrRounds_of_pass k last hdraw hpass]
        exact ih rng' a
      · exact .inr ⟨_, _, mrRounds_of_fail k last hdraw hpass, .inr ⟨rfl, rng, a, hdraw, hpass⟩⟩

/-! ### The relation of the rounds is the machine's function (R161, R163) -/

theorem FirstAccepted.le {next : Word → Word} {n i j : Nat} {rng : Word} (hi : FirstAccepted next n rng i)
    (hj : FirstAccepted next n rng j) : i ≤ j := by
  obtain ⟨-, -, hbefore⟩ := hi
  obtain ⟨hone, hlt, -⟩ := hj
  by_contra hij
  exact absurd hlt (not_lt.mpr (hbefore j hone (by omega)))

/-- At most one draw is the first accepted one, so the selection gives that draw. -/
theorem drawWitness_of_firstAccepted {next : Word → Word} {n maxdraw j : Nat} {rng : Word}
    (hfirst : FirstAccepted next n rng j) (hj : j ≤ maxdraw) :
    drawWitness next n maxdraw rng = (some (2 + candidate n (drawn next rng j)), drawn next rng j) := by
  rcases drawWitness_cases next n maxdraw rng with ⟨-, hrejected⟩ | ⟨i, -, hfirst', hdraw⟩
  · obtain ⟨hone, hlt, -⟩ := hfirst
    exact absurd hlt (not_lt.mpr (hrejected j hone hj))
  · obtain rfl : i = j := le_antisymm (hfirst'.le hfirst) (hfirst.le hfirst')
    exact hdraw

theorem drawWitness_of_rejected {next : Word → Word} {n maxdraw : Nat} {rng : Word}
    (hrejected : ∀ i, 1 ≤ i → i ≤ maxdraw → witnessSpan n ≤ candidate n (drawn next rng i)) :
    drawWitness next n maxdraw rng = (none, drawn next rng maxdraw) := by
  rcases drawWitness_cases next n maxdraw rng with ⟨hdraw, -⟩ | ⟨j, hj, ⟨hone, hlt, -⟩, -⟩
  · exact hdraw
  · exact absurd hlt (not_lt.mpr (hrejected j hone hj))

section
variable {next : Word → Word} {n maxdraw : Nat} (hn : 5 ≤ n) (hodd : n % 2 = 1)
include hn hodd

/-- The machine's rounds are a run of the relation. -/
theorem roundsRun_mrRounds (k : Nat) (rng : Word) (last : Nat) :
    RoundsRun next n maxdraw k rng last (mrRounds next n maxdraw k rng last) := by
  induction k generalizing rng last with
  | zero => exact .allPass rng last
  | succ k ih =>
    rcases drawWitness_cases next n maxdraw rng with ⟨hdraw, hrejected⟩ | ⟨j, hj, hfirst, hdraw⟩
    · rw [mrRounds_of_exhausted k last hdraw]
      exact .exhausted k rng last hrejected
    · by_cases hpass : mrRound n (decomp n).1 (decomp n).2 (2 + candidate n (drawn next rng j)) = true
      · rw [mrRounds_of_pass k last hdraw hpass]
        exact .pass k rng last j _ hfirst hj ((mrRound_iff_passesRound hn hodd _).mp hpass) (ih _ _)
      · rw [mrRounds_of_fail k last hdraw hpass]
        exact .composite k rng last j hfirst hj (mt (mrRound_iff_passesRound hn hodd _).mpr hpass)

/-- Every run of the relation ends as the machine's rounds do. -/
theorem RoundsRun.eq_mrRounds {k : Nat} {rng : Word} {last : Nat} {out : Result}
    (h : RoundsRun next n maxdraw k rng last out) : out = mrRounds next n maxdraw k rng last := by
  induction h with
  | allPass rng last => rfl
  | exhausted k rng last hrejected => exact (mrRounds_of_exhausted k last (drawWitness_of_rejected hrejected)).symm
  | composite k rng last j hfirst hj hfails =>
    have hround := mt (mrRound_iff_passesRound hn hodd _).mp hfails
    exact (mrRounds_of_fail k last (drawWitness_of_firstAccepted hfirst hj) hround).symm
  | pass k rng last j out hfirst hj hpasses _ ih =>
    have hround := (mrRound_iff_passesRound hn hodd _).mpr hpasses
    exact ih.trans (mrRounds_of_pass k last (drawWitness_of_firstAccepted hfirst hj) hround).symm

end

/-! ### MRTEST (R163 to R166) -/

theorem mrtest_of_shortcut (next : Word → Word) (k : Nat) {l : Latch} {verdict : Bool}
    (h : shortcut l.opA = some verdict) :
    mrtest next k l = .ok { res := some (verdictWord verdict), aux := some 0#32 } l.rng := by
  simp only [mrtest, h]

theorem mrtest_of_no_shortcut (next : Word → Word) (k : Nat) {l : Latch} (h : shortcut l.opA = none) :
    mrtest next k l = mrRounds next l.opA l.tries k l.rng 0 := by
  simp only [mrtest, h]

theorem commandResult_mrtest_of_odd (k : Nat) {l : Latch} (hn : 5 ≤ l.opA) (hodd : l.opA % 2 = 1) :
    commandResult (.mrtest k) l = mrRounds rngNext l.opA l.tries k l.rng 0 :=
  mrtest_of_no_shortcut rngNext k (shortcut_of_odd hn hodd)

/-- Settles O38: the shortcut is taken before any round, so no draw is made. -/
theorem mrtestShortcuts : Obligations.MrtestShortcuts := by
  intro s l k verdict hbusy hrange
  obtain ⟨b, hshortcut, rfl⟩ := shortcut_of_range hrange
  exact exec_of_ok (i := .mrtest k) hbusy (mrtest_of_shortcut rngNext k hshortcut)

/-- Settles O39: the outcome is that of the machine's rounds, which the relation has as its only one. -/
theorem mrtestRunsItsRounds : Obligations.MrtestRunsItsRounds := by
  intro s l k hbusy hn hodd
  refine ⟨_, roundsRun_mrRounds hn hodd k l.rng 0, fun _ h => h.eq_mrRounds hn hodd, ?_⟩
  rw [exec_of_busy _ hbusy, commandResult_mrtest_of_odd k hn hodd]

/-- Settles O41: an exhausted selection is the only error, and a power-of-two span accepts the first draw. -/
theorem mrtestCompletesOnPowerOfTwoSpans : Obligations.MrtestCompletesOnPowerOfTwoSpans := by
  intro s l k j hbusy hj hpower hmaxdraw
  have hn : l.opA = 2 ^ j + 3 := hpower
  have hspan : 2 ^ j = 2 * 2 ^ (j - 1) := by rw [← pow_succ', Nat.sub_add_cancel hj]
  have hpos : 0 < 2 ^ (j - 1) := by positivity
  have hresult := commandResult_mrtest_of_odd k (l := l) (by omega) (by omega)
  rcases mrRounds_cases rngNext l.opA l.tries k l.rng 0 with ⟨g, g', hdraw, -⟩ | ⟨ws, g', hrounds, hres⟩
  · rw [drawWitness_of_first_draw hmaxdraw (candidate_lt_of_power_of_two_span hpower _)] at hdraw
    cases hdraw
  · refine ⟨_, exec_of_ok hbusy (hresult.trans hrounds), rfl, rfl, ?_, rfl⟩
    rcases hres with hone | ⟨hzero, -⟩
    · exact .inr (by simp [hone])
    · exact .inl (by simp [hzero])

/-- Settles O42: the first selection has no try to make. -/
theorem mrtestExhaustedAtOnce : Obligations.MrtestExhaustedAtOnce := by
  intro s l k hbusy hn hodd hmaxdraw hk
  obtain ⟨k, rfl⟩ : ∃ k', k = k' + 1 := ⟨k - 1, by omega⟩
  have hdraw : drawWitness rngNext l.opA l.tries l.rng = (none, l.rng) := by
    rw [Latch.tries, hmaxdraw, BitVec.toNat_zero, drawWitness]
  exact exec_of_err hbusy ((commandResult_mrtest_of_odd _ hn hodd).trans (mrRounds_of_exhausted k 0 hdraw))

/-- MRTEST without RNG_EXHAUSTED gives RES = 1, or RES = 0 for an n that is not prime, whatever the generator. -/
theorem mrtest_cases (next : Word → Word) (k : Nat) (l : Latch) :
    (∃ g, mrtest next k l = .err .rngExhausted g) ∨
      ∃ ws g, mrtest next k l = .ok ws g ∧ (ws.res = some 1#32 ∨ ws.res = some 0#32 ∧ ¬ l.opA.Prime) := by
  rcases shortcut_cases l.opA with ⟨hshortcut, hnot⟩ | ⟨hshortcut, -⟩ | ⟨hshortcut, hn⟩
  · exact .inr ⟨_, _, mrtest_of_shortcut next k hshortcut, .inr ⟨rfl, hnot⟩⟩
  · exact .inr ⟨_, _, mrtest_of_shortcut next k hshortcut, .inl rfl⟩
  · rw [mrtest_of_no_shortcut next k hshortcut]
    rcases mrRounds_cases next l.opA l.tries k l.rng 0 with ⟨-, g', -, hrounds⟩ | ⟨ws, g', hrounds, hres⟩
    · exact .inl ⟨g', hrounds⟩
    · refine .inr ⟨ws, g', hrounds, hres.imp_right fun ⟨hzero, g, a, hdraw, hfail⟩ => ⟨hzero, fun hprime => ?_⟩⟩
      obtain ⟨hlow, hhigh⟩ := drawWitness_range hn hdraw
      exact hfail (primesPassEveryRound l.opA a hn hprime hlow hhigh)

/-- MRTEST 2 in flight on 91 = 7 * 13 with SEED = 8, as an accept leaves it (R164). -/
def strongLiarRun : State :=
  { State.reset with engine := { Engine.reset with opa := 91#32, seed := 8#32 }.accept (encode (.mrtest 2)) }

/-- The latch of that command. -/
def strongLiarLatch : Latch :=
  { Engine.reset with opa := 91#32, seed := 8#32 }.capture (encode (.mrtest 2))

/-- Both draws give the witness 10, a strong liar for 91, so both rounds pass. -/
theorem commandResult_strongLiarLatch :
    commandResult (.mrtest 2) strongLiarLatch = .ok { res := some 1#32, aux := some 10#32 } 0x20023008#32 :=
  rfl

/-- Settles O44: a RES of 0 has a shortcut or a failed round behind it, and no prime has either; 91 passes two rounds
with a strong liar. -/
theorem mrtestIsSoundForEveryGenerator : Obligations.MrtestIsSoundForEveryGenerator := by
  refine ⟨fun next k s t l hbusy hnext herr => ?_, fun k s => rfl,
    strongLiarRun, _, strongLiarLatch, rfl, exec_of_ok rfl commandResult_strongLiarLatch, rfl, rfl, ?_⟩
  · rw [complete_busy _ s l hbusy] at hnext
    cases hnext
    rcases mrtest_cases next k l with ⟨g, hresult⟩ | ⟨ws, g, hresult, hres⟩
    · simp [hresult] at herr
    · rcases hres with hone | ⟨hzero, hnot⟩
      · simp [hresult, hone]
      · simp [hresult, hzero, hnot]
  · have hn : strongLiarLatch.a.toNat = 7 * 13 := rfl
    rw [hn]
    norm_num

/-- Settles O40: with no round to run MRTEST completes at once. -/
theorem mrtestWithNoRounds : Obligations.MrtestWithNoRounds := by
  intro s l hbusy hn hodd
  refine ⟨exec_of_ok hbusy (commandResult_mrtest_of_odd 0 hn hodd), fun hinv => ?_⟩
  obtain ⟨-, hrng, -⟩ := hinv.latch l hbusy
  exact hrng

end Sys2Proof.Machine
end

section
/-! PROOFS. The family of 60_exceptions.md: an access and a completion that meet, in both orders (R184). -/

namespace Sys2Proof.Machine

section
variable {s : State} {l : Latch} {rest : List Event}

/-! ### One event of the two -/

theorem step_of_read (r : WindowReg) (hr : s.resetAsserted = false)
    (hagenda : s.agenda = .access (.read (Config.mexpBase + r.off) .word) :: rest) :
    step s = .next ({ s with agenda := rest }.answered (s.engine.readReg r)) := by
  rw [step_of_cons hagenda]
  exact busRead_reg r (s := { s with agenda := rest }) hr

theorem step_of_write (r : WindowReg) {w : Word} (hr : s.resetAsserted = false)
    (hagenda : s.agenda = .access (.write (Config.mexpBase + r.off) .word w) :: rest) :
    step s = .next ({ s with agenda := rest }.written (s.engine.writeReg r w)) := by
  rw [step_of_cons hagenda]
  exact busWrite_reg r w (s := { s with agenda := rest }) hr

/-- The completion commits the outcome of the latch, whether or not the latched word is legal (R102, R105). -/
theorem step_of_completion_busy (hr : s.resetAsserted = false) (hbusy : s.engine.phase = .busy l)
    (hagenda : s.agenda = .completion :: rest) :
    step s = .next { s with agenda := rest, engine := s.engine.commit (latchResult l) } := by
  rw [step_of_cons hagenda]
  exact engineEvent_of_busy (s := { s with agenda := rest }) hr hbusy

theorem step_of_completion_idle (hidle : s.engine.phase = .idle) (hagenda : s.agenda = .completion :: rest) :
    step s = .next { s with agenda := rest } := by
  rw [step_of_cons hagenda]
  exact engineEvent_of_idle (s := { s with agenda := rest }) hidle

/-! ### Both orders -/

theorem stepN_read_completion (r : WindowReg) (hr : s.resetAsserted = false) (hbusy : s.engine.phase = .busy l)
    (hagenda : s.agenda = .access (.read (Config.mexpBase + r.off) .word) :: .completion :: rest) :
    ∃ t, stepN 2 s = some t ∧ t.engine = s.engine.commit (latchResult l) ∧
      t.lastResponse = some (.okRead (s.engine.readReg r)) :=
  ⟨_, stepN_two (step_of_read r hr hagenda) (step_of_completion_busy hr hbusy rfl), rfl, rfl⟩

theorem stepN_completion_read (r : WindowReg) (hr : s.resetAsserted = false) (hbusy : s.engine.phase = .busy l)
    (hagenda : s.agenda = .completion :: .access (.read (Config.mexpBase + r.off) .word) :: rest) :
    ∃ t, stepN 2 s = some t ∧ t.engine = s.engine.commit (latchResult l) ∧
      t.lastResponse = some (.okRead ((s.engine.commit (latchResult l)).readReg r)) :=
  ⟨_, stepN_two (step_of_completion_busy hr hbusy hagenda) (step_of_read r hr rfl), rfl, rfl⟩

/-- A write that keeps the command in flight, then the completion. -/
theorem stepN_write_completion (r : WindowReg) {w : Word} (hr : s.resetAsserted = false)
    (hbusy : (s.engine.writeReg r w).phase = .busy l)
    (hagenda : s.agenda = .access (.write (Config.mexpBase + r.off) .word w) :: .completion :: rest) :
    ∃ t, stepN 2 s = some t ∧ t.engine = (s.engine.writeReg r w).commit (latchResult l) :=
  ⟨_, stepN_two (step_of_write r hr hagenda) (step_of_completion_busy hr hbusy rfl), rfl⟩

/-- A write that ends the command in flight leaves the completion nothing to do. -/
theorem stepN_write_completion_idle (r : WindowReg) {w : Word} (hr : s.resetAsserted = false)
    (hidle : (s.engine.writeReg r w).phase = .idle)
    (hagenda : s.agenda = .access (.write (Config.mexpBase + r.off) .word w) :: .completion :: rest) :
    ∃ t, stepN 2 s = some t ∧ t.engine = s.engine.writeReg r w :=
  ⟨_, stepN_two (step_of_write r hr hagenda) (step_of_completion_idle hidle rfl), rfl⟩

theorem stepN_completion_write (r : WindowReg) {w : Word} (hr : s.resetAsserted = false)
    (hbusy : s.engine.phase = .busy l)
    (hagenda : s.agenda = .completion :: .access (.write (Config.mexpBase + r.off) .word w) :: rest) :
    ∃ t, stepN 2 s = some t ∧ t.engine = (s.engine.commit (latchResult l)).writeReg r w :=
  ⟨_, stepN_two (step_of_completion_busy hr hbusy hagenda) (step_of_write r hr rfl), rfl⟩

end

/-- A commit leaves WERR as a dropped write set it (R62, R103, R104). -/
theorem commit_markDropped (r : Result) (e : Engine) :
    e.markDropped.commit r = { e.commit r with werr := true } := by
  cases r <;> rfl

/-- A write of 1 to STATUS bit 1 clears DONE (R23). -/
theorem writeReg_status_done_clear (e : Engine) {w : Word} (h : w.getLsbD 1 = true) :
    (e.writeReg .status w).done = false := by
  simp [Engine.writeReg, Engine.writeStatus, h]

/-- Settles O55: the two events in either order; the invariant is not needed, since the latch decides the outcome. -/
theorem accessAndCompletionInBothOrders : Obligations.AccessAndCompletionInBothOrders := by
  intro s l w _ hr hbusy
  have hidle : (s.engine.commit (latchResult l)).phase = .idle := commit_phase _ _
  refine ⟨fun _ => stepN_read_completion .status hr hbusy, fun _ => stepN_completion_read .status hr hbusy,
    fun _ hagenda => ?_, fun _ hagenda => ?_, fun _ hsrst horder => ?_, fun _ hagenda => ?_, fun _ hagenda => ?_⟩
  · have hdropped : s.engine.writeReg .cmd w = s.engine.markDropped :=
      writeReg_of_busy ((isBusy_iff _).mpr ⟨l, hbusy⟩) (by decide) w
    rw [← commit_markDropped, ← hdropped]
    exact stepN_write_completion .cmd hr (hdropped ▸ hbusy) hagenda
  · rw [← writeReg_cmd_of_idle hidle]
    exact stepN_completion_write .cmd hr hbusy hagenda
  · rcases horder with hfirst | hlast
    · rw [← writeReg_ctrl_of_srst s.engine hsrst]
      exact stepN_write_completion_idle .ctrl hr (by rw [writeReg_ctrl_of_srst _ hsrst]; rfl) hfirst
    · rw [← writeReg_ctrl_of_srst (s.engine.commit (latchResult l)) hsrst]
      exact stepN_completion_write .ctrl hr hbusy hlast
  · obtain ⟨t, hrun, hengine⟩ := stepN_write_completion .status hr hbusy hagenda
    exact ⟨t, hrun, hengine ▸ commit_done _ _⟩
  · obtain ⟨t, hrun, hengine⟩ := stepN_completion_write .status hr hbusy hagenda
    exact ⟨t, hrun, hengine ▸ writeReg_status_done_clear _ (by decide)⟩

end Sys2Proof.Machine
end

section
/-! PROOFS. The family of 70_reset_and_hazards.md: the hardware reset (R210), the soft reset (R212), and the only stops
of a step. -/

namespace Sys2Proof.Machine

/-! ### Hardware reset (R210) -/

/-- The reset input holds the engine: it has no step of its own (R210). -/
theorem engineEvent_of_asserted {s : State} (hr : s.resetAsserted = true) : engineEvent s = .next s := by
  simp only [engineEvent_eq, hr]

/-- An access to the window while the reset input is asserted is refused (R210). -/
theorem busAccess_of_asserted {a : Access} {s : State} {off : Nat} (hr : s.resetAsserted = true)
    (hwindow : windowOffset a.addr = some off) : busAccess a s = .refused .accessDuringReset := by
  simp only [busAccess, hwindow, hr, if_true]

/-- Settles O21: the two edges as events of the serial order, and what the asserted input does to the others. -/
theorem hardwareResetFromAnyState : Obligations.HardwareResetFromAnyState := by
  refine ⟨fun _ _ => step_of_cons, fun _ _ => step_of_cons, fun s rest hr hagenda => ?_,
    fun _ _ _ => busAccess_of_asserted⟩
  rw [step_of_cons hagenda]
  exact engineEvent_of_asserted (s := { s with agenda := rest }) hr

/-! ### Soft reset (R212) -/

/-- If an access gives a next state, the engine is as before or took a full-word write to a register at its address
(R50, R52). -/
theorem busAccess_next_engine {a : Access} {s t : State} (h : busAccess a s = .next t) :
    t.engine = s.engine ∨
      ∃ r w, a = .write (Config.mexpBase + r.off) .word w ∧ t.engine = s.engine.writeReg r w := by
  cases hwindow : windowOffset a.addr with
  | none =>
    rw [busAccess_outside s hwindow] at h
    cases h
    exact .inl rfl
  | some off =>
    cases hr : s.resetAsserted with
    | true =>
      rw [busAccess_of_asserted hr hwindow] at h
      cases h
    | false =>
      rw [busAccess_inside hr hwindow] at h
      cases h
      refine (respond_engine s.engine a off).imp_right ?_
      rintro ⟨addr, w, rfl, haligned, hwrite⟩
      obtain ⟨haddr, hlt⟩ := (windowOffset_eq_some addr off).mp hwindow
      have hoff : (slotAt off).off = off := by rw [off_slotAt hlt]; omega
      exact ⟨slotAt off, w, by rw [hoff, haddr], hwrite⟩

/-- Of the legal writes while BUSY only a soft reset ends the command in flight (R62, R212). -/
theorem writeReg_phase_of_busy {e : Engine} {l : Latch} (hbusy : e.phase = .busy l) (r : WindowReg) (w : Word) :
    (e.writeReg r w).phase = .busy l ∨ r = .ctrl ∧ w.getLsbD 1 = true := by
  cases r with
  | ctrl =>
    cases hsrst : w.getLsbD 1 with
    | true => exact .inr ⟨rfl, rfl⟩
    | false => exact .inl (writeReg_ctrl_of_no_srst e hsrst ▸ hbusy)
  | cmd | seed | maxdraw =>
    rw [writeReg_of_busy ((isBusy_iff e).mpr ⟨l, hbusy⟩) (by decide)]
    exact .inl hbusy
  | status | opa | opb | opc | res | x | y | aux | id | rsv34 | rsv38 | rsv3C => exact .inl hbusy

/-- Settles O22: the write performs the soft reset, after which the engine is IDLE; the other writes keep PHASE. -/
theorem softResetInEitherPhase : Obligations.SoftResetInEitherPhase := by
  constructor
  · intro s w hr hsrst
    exact ⟨writeReg_ctrl_of_srst s.engine hsrst ▸ busWrite_reg .ctrl w hr, rfl, rfl, engineEvent_of_idle rfl⟩
  · intro s t l a hbusy h
    rcases busAccess_next_engine h with hsame | ⟨r, w, ha, hwrite⟩
    · exact .inl (hsame ▸ hbusy)
    · rw [hwrite]
      refine (writeReg_phase_of_busy hbusy r w).imp_right ?_
      rintro ⟨rfl, hsrst⟩
      exact ⟨w, ha, hsrst⟩

/-! ### The only stops of a step -/

/-- No completion stops the machine, whatever the latch holds. -/
theorem engineEvent_next (s : State) : ∃ t, engineEvent s = .next t := by
  rw [engineEvent_eq]
  split
  · exact ⟨_, rfl⟩
  · exact ⟨_, rfl⟩

/-- A host operation stops as its access is refused, or past the end of the host's program. -/
theorem hostEvent_stops (k : Nat) (s : State) :
    (∃ t, hostEvent k s = .next t) ∨
      (s.resetAsserted = true ∧ hostEvent k s = .refused .accessDuringReset) ∨
      hostEvent k s = .fault .hostRanOffProgram ∧ ∃ h, s.hosts[k]? = some h ∧ h.prog.length ≤ h.pc := by
  cases hk : s.hosts[k]? with
  | none => exact .inl ⟨s, by simp only [hostEvent, hk]⟩
  | some h =>
    cases hop : h.prog[h.pc]? with
    | none => exact .inr (.inr ⟨by simp only [hostEvent, hk, hop], h, rfl, List.getElem?_eq_none_iff.mp hop⟩)
    | some op =>
      cases haccess : h.accessOf op with
      | none => exact .inl ⟨_, hostEvent_of_local hk hop haccess⟩
      | some a =>
        rcases busAccess_stops a s with ⟨t, hnext⟩ | ⟨hr, hrefused⟩
        · exact .inl ⟨_, hostEvent_of_access hk hop haccess hnext⟩
        · exact .inr (.inl ⟨hr, by simp only [hostEvent, hk, hop, haccess, hrefused]⟩)

/-- Every step gives a next state, but for an access during reset and a host past the end of its program. -/
theorem step_stops (s : State) :
    (∃ t, step s = .next t) ∨
      (s.resetAsserted = true ∧ step s = .refused .accessDuringReset) ∨
      step s = .fault .hostRanOffProgram ∧ ∃ (k : Nat) (rest : List Event) (h : HostAgent),
        s.agenda = .host k :: rest ∧ s.hosts[k]? = some h ∧ h.prog.length ≤ h.pc := by
  cases hagenda : s.agenda with
  | nil => exact .inl (step_of_nil hagenda ▸ engineEvent_next s)
  | cons ev rest =>
    rw [step_of_cons hagenda]
    cases ev with
    | access a => exact (busAccess_stops a { s with agenda := rest }).imp_right .inl
    | host k =>
      rcases hostEvent_stops k { s with agenda := rest } with hnext | hrefused | ⟨hfault, h, hk, hpc⟩
      · exact .inl hnext
      · exact .inr (.inl hrefused)
      · exact .inr (.inr ⟨hfault, k, rest, h, rfl, hk, hpc⟩)
    | completion => exact .inl (engineEvent_next _)
    | assertReset | releaseReset => exact .inl ⟨_, rfl⟩

/-- Settles O56: the cases of `step_stops`, and the completion by `engineEvent_next`. -/
theorem stepStopsOnlyOutsideTheEngine : Obligations.StepStopsOnlyOutsideTheEngine := by
  refine ⟨fun s r hrefused => ?_, fun s f hfault => ?_, fun s hengine => ?_⟩
  · rcases step_stops s with ⟨_, hstep⟩ | ⟨hr, hstep⟩ | ⟨hstep, -⟩
    · cases hstep.symm.trans hrefused
    · cases hstep.symm.trans hrefused
      exact ⟨rfl, hr⟩
    · cases hstep.symm.trans hrefused
  · rcases step_stops s with ⟨_, hstep⟩ | ⟨-, hstep⟩ | ⟨hstep, hhost⟩
    · cases hstep.symm.trans hfault
    · cases hstep.symm.trans hfault
    · cases hstep.symm.trans hfault
      exact ⟨rfl, hhost⟩
  · rcases hengine with hnil | ⟨_, hcompletion⟩
    · rw [SafeStep, step_of_nil hnil]
      exact engineEvent_next s
    · rw [SafeStep, step_of_cons hcompletion]
      exact engineEvent_next _

end Sys2Proof.Machine
end
